-- ==== Sys2Proof/Word.lean ====
section
/-! DEFINITION. The word types of the POD Huffman core (00_scope.md R5, R9) and nothing else. -/

namespace Sys2Proof

/-- A source byte, a character or a symbol: SYM_W = 8 bits (R5). -/
abbrev Byte := BitVec 8

/-- A command word: CMD_W = 16 bits (R5, R80). -/
abbrev Word := BitVec 16

/-- A count or a node weight: WEIGHT_W = 32 bits (R5). -/
abbrev Weight := BitVec 32

/-- A node index, or NIL: IDX_W = 9 bits (R5). -/
abbrev Idx := BitVec 9

/-- An address of the host read port: RADDR_W = 32 bits (R5, R61). -/
abbrev Addr := BitVec 32

/-- A word of the host read port: RDATA_W = 32 bits (R5, R61). -/
abbrev Data := BitVec 32

/-- A bit-string in the order its bits are produced; `false` is '0' and a left edge, `true` is '1' and
a right edge (R9, R63 (a)). -/
abbrev Code := List Bool

end Sys2Proof
end

