-- ==== Sys2Proof/Machine/Node.lean ====
section
/-! DEFINITION. The record of one NODE slot (10_state.md R26). -/

namespace Sys2Proof.Machine

/-- One node of the tree: a leaf (`isLeaf`, the byte value, its count, both links NIL) or an internal
node (MARKER, the sum of its children's weights, the indices of its two children). R26. -/
structure Node where
  isLeaf : Bool
  sym    : Byte
  weight : Weight
  left   : Idx
  right  : Idx
  deriving DecidableEq, Repr, Inhabited

end Sys2Proof.Machine
end

