-- ==== Sys2Proof/Config.lean ====
section
/-! DEFINITION. The parameters of the block (00_scope.md R5): those the spec fixes, the one it leaves
OPEN (OUT_CAP), and the free values that stand for contents the spec calls unspecified. -/

namespace Sys2Proof.Config

/-- WMAX, the largest representable weight (R5). -/
def wmax : Nat := 4294967295

/-- NODE_MAX, the number of node slots (R5). -/
def nodeMax : Nat := 511

/-- NSYM, the number of symbol values; also the number of PQ slots (R5, R28). -/
def nsym : Nat := 256

/-- NIL, the index that names no node (R5). -/
def nil : Idx := 0x1FF#9

/-- CODE_LEN_MAX, the width of the path register and of a code record's bits (R5, R37). -/
def codeLenMax : Nat := 255

/-- NEWLINE, the byte CNT and ENC drop (R5, R88). -/
def newline : Byte := 0x0A#8

/-- CHAR0, the character that spells code bit 0 (R5, R88). -/
def char0 : Byte := 0x30#8

/-- CHAR1, the character that spells code bit 1 (R5, R88). -/
def char1 : Byte := 0x31#8

/-- MARKER, the symbol field of an internal node (R5, R26). -/
def marker : Byte := 0x00#8

/-- OUT_CAP less one: a FREE VALUE, because OUT_CAP is OPEN (R5, D13). Log entry 1. -/
opaque outCapLessOne : BitVec 31

/-- OUT_CAP, the capacity of the output buffer: some number from 1 to 2^31, which one is not said (R5). -/
def outCap : Nat := outCapLessOne.toNat + 1

/-- FREE VALUE: what a host read of an unspecified slot returns, at the n-th input and for an address
(10_state.md R41; 93_implementation_defined.md S1 to S3). Log entry 3. -/
opaque unspecifiedRead : Nat → Addr → Data

/-- FREE VALUE: the record a command would find in a NODE slot that holds none. No rule of the spec
reads such a slot (R41) and no state that meets the invariants does. Log entry 4. -/
opaque strayNode : Idx → Sys2Proof.Machine.Node

end Sys2Proof.Config
end

