-- ==== Sys2Proof/Syntax.lean ====
section
/-! DEFINITION. The eleven commands (30_encoding.md R83), their mnemonics and formats, and a line of
the assembler's syntax (R89) before its operand is checked. -/

namespace Sys2Proof

/-- The commands of the opcode map, one constructor a row of spec/opcode_table.json (R83). -/
inductive Instr where
  /-- no operation (R102) -/
  | nop
  /-- clear all state, clear the fault (R103) -/
  | clr
  /-- count one source byte (R104) -/
  | cnt (b : Byte)
  /-- build the tree from FREQ (R123) -/
  | bld
  /-- generate the code table from the tree (R140) -/
  | gen
  /-- open an encode session (R150) -/
  | ebeg
  /-- encode one source byte (R151) -/
  | enc (b : Byte)
  /-- close the encode session (R152) -/
  | eend
  /-- open a decode session (R165) -/
  | dbeg
  /-- decode one character (R166) -/
  | dec (c : Byte)
  /-- close the decode session (R167) -/
  | dend
  deriving DecidableEq, Repr

/-- The mnemonics of R83. -/
inductive Mnemonic where
  | NOP | CLR | CNT | BLD | GEN | EBEG | ENC | EEND | DBEG | DEC | DEND
  deriving DecidableEq, Repr

/-- The two formats of R81: Z takes no operand, B takes one byte. -/
inductive Format where
  | Z | B
  deriving DecidableEq, Repr

/-- The format of each mnemonic (R83). -/
def Mnemonic.format : Mnemonic → Format
  | .NOP => .Z
  | .CLR => .Z
  | .CNT => .B
  | .BLD => .Z
  | .GEN => .Z
  | .EBEG => .Z
  | .ENC => .B
  | .EEND => .Z
  | .DBEG => .Z
  | .DEC => .B
  | .DEND => .Z

/-- The mnemonic of each command (R83). -/
def Instr.mnemonic : Instr → Mnemonic
  | .nop => .NOP
  | .clr => .CLR
  | .cnt _ => .CNT
  | .bld => .BLD
  | .gen => .GEN
  | .ebeg => .EBEG
  | .enc _ => .ENC
  | .eend => .EEND
  | .dbeg => .DBEG
  | .dec _ => .DEC
  | .dend => .DEND

/-- A command as the assembler reads it (R89): a mnemonic and the number written after it, if any.
It need not be a command: `WellFormed` says when it is. -/
structure AsmCommand where
  mnemonic : Mnemonic
  operand  : Option Nat
  deriving DecidableEq, Repr

end Sys2Proof
end

