-- ==== Sys2Proof/WellFormed.lean ====
section
/-! DEFINITION. Well-formedness. A term of `Instr` has nothing to check: its one operand is a byte by
its type (30_encoding.md R82), so every term encodes to a legal word. What can be ill-formed is a
written command (R89), and its three assembly errors are the checks below. -/

namespace Sys2Proof

/-- Every command is well-formed: its operand, where it has one, is 8 bits wide (R82). -/
def Instr.WellFormed : Instr → Bool
  | .nop => true
  | .clr => true
  | .cnt _ => true
  | .bld => true
  | .gen => true
  | .ebeg => true
  | .enc _ => true
  | .eend => true
  | .dbeg => true
  | .dec _ => true
  | .dend => true

/-- A written command is well-formed when a format Z mnemonic has no operand and a format B mnemonic
has one of at most 255; the three other cases are R89's assembly errors. -/
def AsmCommand.WellFormed (a : AsmCommand) : Bool :=
  match a.mnemonic.format, a.operand with
  | .Z, none => true
  | .Z, some _ => false
  | .B, none => false
  | .B, some n => decide (n ≤ 255)

end Sys2Proof
end

