-- ==== Sys2Proof/Decode.lean ====
section
/-! DEFINITION. The decoder (30_encoding.md R87, total on every 16-bit word, illegal words rejected by
the clause of R84 they meet), the encoder, and the opcode map of R83 as match and mask. -/

namespace Sys2Proof

/-- Why a word is no command (R84). -/
inductive IllegalWord where
  /-- (b) bits [11:8] are not 0 -/
  | reservedBits
  /-- (a) the opcode is 0xB to 0xF -/
  | reservedOpcode
  /-- (c) a format Z opcode with bits [7:0] not 0 -/
  | operandOnFormatZ
  deriving DecidableEq, Repr

/-- What a word decodes to: a command, or Illegal (R87). -/
inductive Decoded where
  | instr (i : Instr)
  | illegal (why : IllegalWord)
  deriving DecidableEq, Repr

/-- op, bits [15:12] (R80). -/
def opField (w : Word) : BitVec 4 := w.extractLsb' 12 4

/-- rsv, bits [11:8] (R80). -/
def rsvField (w : Word) : BitVec 4 := w.extractLsb' 8 4

/-- opd, bits [7:0] (R80, R82). -/
def opdField (w : Word) : Byte := w.extractLsb' 0 8

/-- The format B opcodes (R81, R83). -/
def formatB (op : BitVec 4) (opd : Byte) : Option Instr :=
  if op = 0x2#4 then some (.cnt opd)
  else if op = 0x6#4 then some (.enc opd)
  else if op = 0x9#4 then some (.dec opd)
  else none

/-- The format Z opcodes (R81, R83). -/
def formatZ (op : BitVec 4) : Option Instr :=
  if op = 0x0#4 then some .nop
  else if op = 0x1#4 then some .clr
  else if op = 0x3#4 then some .bld
  else if op = 0x4#4 then some .gen
  else if op = 0x5#4 then some .ebeg
  else if op = 0x7#4 then some .eend
  else if op = 0x8#4 then some .dbeg
  else if op = 0xA#4 then some .dend
  else none

/-- The total decoder, its tests in the order of R87: the reserved bits, the format B opcodes, the
reserved opcodes, then the operand field of a format Z opcode. -/
def decode (w : Word) : Decoded :=
  if rsvField w ≠ 0#4 then .illegal .reservedBits
  else
    match formatB (opField w) (opdField w) with
    | some i => .instr i
    | none =>
      match formatZ (opField w) with
      | none => .illegal .reservedOpcode
      | some i => if opdField w ≠ 0#8 then .illegal .operandOnFormatZ else .instr i

/-- The opcode of each command (R83). -/
def Instr.opcode : Instr → BitVec 4
  | .nop => 0x0#4
  | .clr => 0x1#4
  | .cnt _ => 0x2#4
  | .bld => 0x3#4
  | .gen => 0x4#4
  | .ebeg => 0x5#4
  | .enc _ => 0x6#4
  | .eend => 0x7#4
  | .dbeg => 0x8#4
  | .dec _ => 0x9#4
  | .dend => 0xA#4

/-- The operand field of each command: 0 in format Z (R80, R87). -/
def Instr.operand : Instr → Byte
  | .nop => 0#8
  | .clr => 0#8
  | .cnt b => b
  | .bld => 0#8
  | .gen => 0#8
  | .ebeg => 0#8
  | .enc b => b
  | .eend => 0#8
  | .dbeg => 0#8
  | .dec c => c
  | .dend => 0#8

/-- The encoder, the word {op, 0b0000, opd} (R87). -/
def encode (i : Instr) : Word := i.opcode ++ (0#4 ++ i.operand)

/-- The command in the bits numbered as spec/opcode_table.json numbers them: `nbits` of `w`, the bits
above them 0. -/
def decodeTableWord (nbits w : Nat) : Option Instr :=
  match decode (BitVec.ofNat 16 (w % 2 ^ nbits)) with
  | .instr i => some i
  | .illegal _ => none

/-- One row of the opcode map (R83). -/
structure OpcodeRow where
  mnemonic : Mnemonic
  format   : Format
  matchBits : Word
  maskBits  : Word
  deriving DecidableEq, Repr

/-- The opcode map, row by row as R83 and spec/opcode_table.json have it. -/
def opcodeMap : List OpcodeRow :=
  [ ⟨.NOP, .Z, 0x0000#16, 0xFFFF#16⟩,
    ⟨.CLR, .Z, 0x1000#16, 0xFFFF#16⟩,
    ⟨.CNT, .B, 0x2000#16, 0xFF00#16⟩,
    ⟨.BLD, .Z, 0x3000#16, 0xFFFF#16⟩,
    ⟨.GEN, .Z, 0x4000#16, 0xFFFF#16⟩,
    ⟨.EBEG, .Z, 0x5000#16, 0xFFFF#16⟩,
    ⟨.ENC, .B, 0x6000#16, 0xFF00#16⟩,
    ⟨.EEND, .Z, 0x7000#16, 0xFFFF#16⟩,
    ⟨.DBEG, .Z, 0x8000#16, 0xFFFF#16⟩,
    ⟨.DEC, .B, 0x9000#16, 0xFF00#16⟩,
    ⟨.DEND, .Z, 0xA000#16, 0xFFFF#16⟩ ]

/-- A word is the command of a row exactly when `(w & mask) == match` (R83). -/
def OpcodeRow.selects (r : OpcodeRow) (w : Word) : Bool := (w &&& r.maskBits) == r.matchBits

/-- The command a well-formed written command stands for (R89); none where it is an assembly error. -/
def AsmCommand.toInstr (a : AsmCommand) : Option Instr :=
  if a.WellFormed then
    match a.mnemonic, a.operand with
    | .NOP, _ => some .nop
    | .CLR, _ => some .clr
    | .CNT, some n => some (.cnt (BitVec.ofNat 8 n))
    | .BLD, _ => some .bld
    | .GEN, _ => some .gen
    | .EBEG, _ => some .ebeg
    | .ENC, some n => some (.enc (BitVec.ofNat 8 n))
    | .EEND, _ => some .eend
    | .DBEG, _ => some .dbeg
    | .DEC, some n => some (.dec (BitVec.ofNat 8 n))
    | .DEND, _ => some .dend
    | .CNT, none => none
    | .ENC, none => none
    | .DEC, none => none
  else none

end Sys2Proof
end

