-- ==== Sys2Proof/Machine/State.lean ====
section
/-! DEFINITION. The architectural state of the block (10_state.md R20), the host's pending inputs, the
reset state (R40, R210), and the reasons the model itself can stop. -/

namespace Sys2Proof.Machine

/-- PHASE, how far the build has gone (R23); the value 3 is never written (S9). -/
inductive Phase where
  /-- 0: the frequency table is being filled -/
  | idle
  /-- 1: BLD has run -/
  | built
  /-- 2: GEN has run, sessions may open -/
  | ready
  deriving DecidableEq, Repr

/-- MODE, which session is open (R24); the value 3 is never written (S9). -/
inductive Mode where
  /-- 0: no session -/
  | none
  /-- 1: an encode session -/
  | enc
  /-- 2: a decode session -/
  | dec
  deriving DecidableEq, Repr

/-- FAULT, the fault code (R33, R185); 5 to 7 are never written (S9). -/
inductive FaultCode where
  /-- 0: no fault is recorded -/
  | none
  /-- 1: RESOURCE (R186) -/
  | resource
  /-- 2: NO_SYMBOL (R187) -/
  | noSymbol
  /-- 3: MALFORMED (R188) -/
  | malformed
  /-- 4: ILLEGAL_CMD (R189) -/
  | illegalCmd
  deriving DecidableEq, Repr

/-- The bits of PHASE (R23). -/
def Phase.bits : Phase → BitVec 2
  | .idle => 0#2
  | .built => 1#2
  | .ready => 2#2

/-- The bits of MODE (R24). -/
def Mode.bits : Mode → BitVec 2
  | .none => 0#2
  | .enc => 1#2
  | .dec => 2#2

/-- The bits of FAULT (R185). -/
def FaultCode.bits : FaultCode → BitVec 3
  | .none => 0#3
  | .resource => 1#3
  | .noSymbol => 2#3
  | .malformed => 3#3
  | .illegalCmd => 4#3

/-- A store of 256 slots indexed by a byte value (FREQ and CODE, R25, R30). -/
abbrev Table (α : Type) := Vector α 256

/-- What the host does to the block between two commands (R6, R7, R200). -/
inductive HostInput where
  /-- the `rst` port: a reset request -/
  | rst
  /-- the `cmd` port: one command word -/
  | cmd (w : Word)
  deriving DecidableEq, Repr

/-- The whole state. The fields from `phase` to `trunc` are R20's; NNODE, QLEN and OUT_LEN are the
lengths of `node`, `pq` and `out`, which hold exactly the specified slots (R41). The last three are the
model's own. -/
structure State where
  /-- PHASE (R23) -/
  phase     : Phase
  /-- MODE (R24) -/
  mode      : Mode
  /-- FREQ (R25) -/
  freq      : Table Weight
  /-- NODE[0 .. NNODE-1] (R26, R27) -/
  node      : List Node
  /-- NLEAF (R27) -/
  nleaf     : Idx
  /-- PQ[0 .. QLEN-1], the front first (R28) -/
  pq        : List Idx
  /-- ROOT (R29) -/
  root      : Idx
  /-- ROOT_VALID (R29) -/
  rootValid : Bool
  /-- CODE (R30): `none` is the invalid record {0, 0, 0}, `some p` the record {1, |p|, p} -/
  code      : Table (Option Code)
  /-- CUR (R31) -/
  cur       : Idx
  /-- OUT[0 .. OUT_LEN-1] (R32) -/
  out       : List Byte
  /-- FAULT (R33) -/
  fault     : FaultCode
  /-- FAULT_CMD (R33) -/
  faultCmd  : Word
  /-- TRUNC (R34) -/
  trunc     : Bool
  /-- OUT_CAP, a parameter that no step changes (R5, D13; log entry 1) -/
  outCap    : Nat
  /-- the host's inputs not yet taken, the next one first (R67, R200; log entry 2) -/
  host      : List HostInput
  /-- how many inputs were taken; picks the free value of an unspecified read (R41; log entry 3) -/
  stamp     : Nat
  deriving DecidableEq, Repr

/-- Why the model stops where the block would not say what it does. The block's own faults (R185) are
no such stop: they are states. -/
inductive Fault where
  /-- Raised by GEN alone, when the walk of R141 would need a path longer than the 255-bit path register.
  SAFE: the spec says it cannot happen (R143), and no state that meets the invariants does it. -/
  | pathRegisterOverflow
  deriving DecidableEq, Repr

/-- Why an instruction has no meaning. -/
inductive Refusal where
  /-- Would be raised by an arm of `exec` that has no meaning yet; no arm does. SAFE. -/
  | notModelled (mnemonic : String)
  deriving DecidableEq, Repr

/-- NNODE (R27): the number of node slots in use. -/
def State.nnode (s : State) : Nat := s.node.length

/-- QLEN (R28): the number of queue slots in use. -/
def State.qlen (s : State) : Nat := s.pq.length

/-- OUT_LEN (R32): the number of output bytes held. -/
def State.outLen (s : State) : Nat := s.out.length

/-- The state after reset (R40, R210), with no host input pending. -/
def State.reset : State where
  phase     := .idle
  mode      := .none
  freq      := Vector.replicate 256 0#32
  node      := []
  nleaf     := 0#9
  pq        := []
  root      := Config.nil
  rootValid := false
  code      := Vector.replicate 256 Option.none
  cur       := Config.nil
  out       := []
  fault     := .none
  faultCmd  := 0#16
  trunc     := false
  outCap    := Config.outCap
  host      := []
  stamp     := 0

end Sys2Proof.Machine
end

