-- ==== Sys2Proof/Machine/Operands.lean ====
section
/-! DEFINITION. The one operand form, the byte in cmd[7:0] (30_encoding.md R82), as the commands read
it: a source byte with the newline filter (R106), a character that spells a code bit (R88). -/

namespace Sys2Proof.Machine

/-- A byte is filtered exactly when it equals NEWLINE (R106). -/
def isFiltered (b : Byte) : Bool := b == Config.newline

/-- filter(S): S with every NEWLINE removed, order otherwise kept (R106). -/
def filterBytes (bs : List Byte) : List Byte := bs.filter fun b => !isFiltered b

/-- The code bit a character spells; none where it is neither CHAR0 nor CHAR1 (R88, R166). -/
def charBit (c : Byte) : Option Bool :=
  if c = Config.char0 then some false
  else if c = Config.char1 then some true
  else none

/-- The character that spells a code bit: CHAR0 + bit (R88, R151). -/
def bitChar (d : Bool) : Byte := if d then Config.char1 else Config.char0

/-- The character form of a bit-string, one byte a bit (R63 (c), R155). -/
def codeChars (p : Code) : List Byte := p.map bitChar

/-- Every byte value in ascending order, `for b in 0..255` (R10). -/
def allBytes : List Byte := (List.range Config.nsym).map (BitVec.ofNat 8)

end Sys2Proof.Machine
end

