-- ==== Sys2Proof/Machine/Ops.lean ====
section
/-! DEFINITION. The named operations the commands share: slots of the stores, reading the arena,
emitting, fault entry (60_exceptions.md R191) and its exit (R193), and the dispatch of R100. -/

namespace Sys2Proof.Machine

/-- ARR[b] of a store indexed by byte value (R10, R60). -/
def Table.get {α : Type} (t : Table α) (b : Byte) : α := t[b.toNat]'b.isLt

/-- ARR[b] <- x of a store indexed by byte value (R10, R60). -/
def Table.put {α : Type} (t : Table α) (b : Byte) (x : α) : Table α :=
  Vector.set t b.toNat x b.isLt

/-- NODE[i] of an arena; a slot that holds no record gives a free value (R41; log entry 4). -/
def nodeRead (node : List Node) (i : Idx) : Node := (node[i.toNat]?).getD (Config.strayNode i)

/-- NODE[i] (R26). -/
def State.nodeAt (s : State) (i : Idx) : Node := nodeRead s.node i

/-- The child of a node along a code bit: left on 0, right on 1 (R141, R166). -/
def Node.child (x : Node) (d : Bool) : Idx := if d then x.right else x.left

/-- `emit` of each byte in turn: OUT[OUT_LEN] <- b, OUT_LEN <- OUT_LEN + 1 (R10). -/
def State.emitAll (s : State) (bs : List Byte) : State := { s with out := s.out ++ bs }

/-- Whether `n` more bytes fit in the output buffer: OUT_LEN + n is at most OUT_CAP (R151, R166, R167). -/
def State.fits (s : State) (n : Nat) : Bool := decide (s.outLen + n ≤ s.outCap)

/-- Fault entry, `raise F(w)` (R191): FAULT, FAULT_CMD, OUT_LEN and MODE, and nothing else. -/
def State.raise (s : State) (f : FaultCode) (w : Word) : State :=
  { s with fault := f, faultCmd := w, out := [], mode := .none }

/-- What CLR and reset leave: every piece of the block's state at its reset value (R103, R210). The
parameter OUT_CAP, the host's pending inputs and the input count are not the block's to clear. -/
def State.cleared (s : State) : State :=
  { State.reset with outCap := s.outCap, host := s.host, stamp := s.stamp }

/-- A host input has been taken: the ones after it remain (R67). -/
def State.taken (s : State) (rest : List HostInput) : State :=
  { s with host := rest, stamp := s.stamp + 1 }

/-- The same state in a block whose OUT_CAP is `n` (R5: the model takes it as an argument). -/
def State.withOutCap (s : State) (n : Nat) : State := { s with outCap := n }

/-- The same state with these command words still to come from the host, in this order (R67). -/
def State.withCommands (s : State) (ws : List Word) : State := { s with host := ws.map .cmd }

/-- A fault is recorded (R192). -/
def State.faulted (s : State) : Bool := s.fault != .none

/-- `legal(c)`: which command is admitted in which PHASE and MODE, the table of R101. -/
def admitted (i : Instr) (s : State) : Bool :=
  match i with
  | .nop => true
  | .clr => true
  | .cnt _ => s.phase == .idle
  | .bld => s.phase == .idle
  | .gen => s.phase == .built
  | .ebeg => s.phase == .ready && s.mode == .none
  | .enc _ => s.mode == .enc
  | .eend => s.mode == .enc
  | .dbeg => s.phase == .ready && s.mode == .none
  | .dec _ => s.mode == .dec
  | .dend => s.mode == .dec

/-- What every command answers: a next state, unless GEN stops on an arena that is no tree. -/
abbrev Result := Host.Outcome State Fault Refusal

/-- The dispatch of R100 around a body, for every command but CLR: ignored while faulted (R192),
ILLEGAL_CMD where not admitted (R101, R189 (b)), else the body. -/
def dispatch (i : Instr) (body : State → Result) (s : State) : Result :=
  if s.faulted then .next s
  else if admitted i s then body s
  else .next (s.raise .illegalCmd (encode i))

/-- The dispatch of R100 on an illegal word: ignored while faulted, else ILLEGAL_CMD (R84, R189 (a)). -/
def rejectWord (w : Word) (s : State) : State :=
  if s.faulted then s else s.raise .illegalCmd w

end Sys2Proof.Machine
end

