-- ==== Sys2Proof/Machine/Flags.lean ====
section
/-! DEFINITION. The one-bit state and the composites computed from it: TRUNC (10_state.md R34),
`fault_o` (60_exceptions.md R195), `resp` (R196), STATUS (10_state.md R35). There are no arithmetic
condition codes (R34). -/

namespace Sys2Proof.Machine

/-- The value DEND writes to TRUNC: the stream ended in the middle of a code (R34, R167, R170). -/
def truncAtEnd (s : State) : Bool := s.rootValid && s.cur != s.root

/-- The root is a leaf, the single-leaf tree (R128, R142, R167). -/
def singleLeaf (s : State) : Bool := s.rootValid && (s.nodeAt s.root).isLeaf

/-- `fault_o`, 1 exactly when FAULT is not 0 (R195). -/
def State.faultO (s : State) : Bool := s.fault != .none

/-- `resp`, the value FAULT has when the command has run (R196). -/
def State.resp (s : State) : BitVec 3 := s.fault.bits

/-- STATUS: {0, FAULTED, TRUNC, ROOT_VALID, MODE, PHASE} from bit 31 down (R35). -/
def State.status (s : State) : Data :=
  0#25 ++ (BitVec.ofBool s.faultO ++ (BitVec.ofBool s.trunc ++ (BitVec.ofBool s.rootValid ++
    (s.mode.bits ++ s.phase.bits))))

end Sys2Proof.Machine
end

