-- ==== Sys2Proof/Machine/Control.lean ====
section
/-! DEFINITION. NOP, CLR and CNT (40_control_and_frequency.md R102 to R104). -/

namespace Sys2Proof.Machine

/-- NOP (R102): the body is empty. -/
def execNop (s : State) : Result := dispatch .nop (fun s => .next s) s

/-- CLR (R103): everything to its reset value; the one command that runs while faulted (R100, R193). -/
def execClr (s : State) : Result := .next s.cleared

/-- The body of CNT (R104): the newline filter, the overflow test, the count. -/
def countByte (b : Byte) (s : State) : Result :=
  if isFiltered b then .next s
  else if (Table.get s.freq b).toNat = Config.wmax then .next (s.raise .resource (encode (.cnt b)))
  else .next { s with freq := Table.put s.freq b (Table.get s.freq b + 1#32) }

/-- CNT b (R104). -/
def execCnt (b : Byte) (s : State) : Result := dispatch (.cnt b) (countByte b) s

end Sys2Proof.Machine
end

