-- ==== Sys2Proof/Machine/Tree.lean ====
section
/-! DEFINITION. The ordered queue and the tree builder: `pq_insert`, `pq_pop` and BLD
(41_tree_builder.md R121 to R129). -/

namespace Sys2Proof.Machine

/-- `pq_insert` (R121): before the first queued node whose weight is strictly greater, at the end when
there is none. The weight of a node is read through `wt`. -/
def pqInsert (wt : Idx → Weight) (n : Idx) : List Idx → List Idx
  | [] => [n]
  | m :: rest => if wt n < wt m then n :: m :: rest else m :: pqInsert wt n rest

/-- `pq_pop` (R122): the front and the queue without it. -/
def pqPop : List Idx → Option (Idx × List Idx)
  | [] => none
  | r :: rest => some (r, rest)

/-- The stores BLD works on: NODE[0 .. n-1], whose length is the slot counter n, and PQ (R123). -/
structure Builder where
  node : List Node
  pq   : List Idx
  deriving DecidableEq, Repr

/-- NODE[n] <- x; pq_insert(n); n <- n + 1 (R123). -/
def Builder.add (b : Builder) (x : Node) : Builder :=
  { node := b.node ++ [x]
    pq := pqInsert (fun i => (nodeRead (b.node ++ [x]) i).weight) (BitVec.ofNat 9 b.node.length) b.pq }

/-- The leaf of a byte value (R124). -/
def leafNode (freq : Table Weight) (b : Byte) : Node :=
  { isLeaf := true, sym := b, weight := Table.get freq b, left := Config.nil, right := Config.nil }

/-- The internal node over the removed pair: first removed left, second removed right (R125). The sum
never passes WMAX, because BLD has tested the total (R129). -/
def internalNode (node : List Node) (a c : Idx) : Node :=
  { isLeaf := false, sym := Config.marker,
    weight := (nodeRead node a).weight + (nodeRead node c).weight, left := a, right := c }

/-- The byte values with a count of at least 1, ascending (R124). -/
def presentBytes (freq : Table Weight) : List Byte :=
  allBytes.filter fun b => Table.get freq b != 0#32

/-- The sum of all counts, exact (R123, R129). -/
def totalCount (freq : Table Weight) : Nat :=
  (allBytes.map fun b => (Table.get freq b).toNat).sum

/-- One leaf per byte value present, put into the queue in ascending order (R124). -/
def addLeaves (freq : Table Weight) : Builder :=
  (presentBytes freq).foldl (fun b x => b.add (leafNode freq x)) { node := [], pq := [] }

/-- The merge loop (R125): while the queue holds more than one node, remove two and insert the node
over them. The first argument bounds the number of merges. -/
def mergeLoop : Nat → Builder → Builder
  | 0, b => b
  | k + 1, b =>
    match pqPop b.pq with
    | none => b
    | some (a, q) =>
      match pqPop q with
      | none => b
      | some (c, rest) =>
        mergeLoop k (Builder.add { node := b.node, pq := rest } (internalNode b.node a c))

/-- The arena and the queue when the merge loop ends (R123, R126): a merge takes one node off the queue,
so there are fewer merges than leaves. -/
def buildTree (freq : Table Weight) : Builder :=
  mergeLoop (addLeaves freq).pq.length (addLeaves freq)

/-- The end of BLD (R126, R127): the node left in the queue is the root; with none there is no tree. -/
def State.withTree (s : State) (nleaf : Nat) (b : Builder) : State :=
  match pqPop b.pq with
  | some (r, rest) =>
    { s with node := b.node, nleaf := BitVec.ofNat 9 nleaf, pq := rest, root := r, rootValid := true,
             phase := .built }
  | none =>
    { s with node := b.node, nleaf := BitVec.ofNat 9 nleaf, pq := [], root := Config.nil,
             rootValid := false, phase := .built }

/-- The body of BLD (R123): the overflow test before any write (R129), then the tree. -/
def buildBody (s : State) : Result :=
  if Config.wmax < totalCount s.freq then .next (s.raise .resource (encode .bld))
  else .next (s.withTree (presentBytes s.freq).length (buildTree s.freq))

/-- BLD (R123). -/
def execBld (s : State) : Result := dispatch .bld buildBody s

end Sys2Proof.Machine
end

