-- ==== Sys2Proof/Machine/CodeTable.lean ====
section
/-! DEFINITION. The code-table generator: the pre-order walk and GEN (42_code_table.md R140 to R143). -/

namespace Sys2Proof.Machine

/-- CODE with every slot {valid 0, len 0, bits 0} (R30, R140). -/
def emptyCodes : Table (Option Code) := Vector.replicate 256 none

/-- `walk(n, path)` (R141): at a leaf store the path, at an internal node go left with path ++ "0", then
right with path ++ "1". The first argument counts the edges the path register still has room for, plus
one; the walk answers none when it would need more (R143: no tree of the block does). -/
def walk (node : List Node) : Nat → Idx → Code → Table (Option Code) → Option (Table (Option Code))
  | 0, _, _, _ => none
  | k + 1, n, path, t =>
    if (nodeRead node n).isLeaf then some (Table.put t (nodeRead node n).sym (some path))
    else
      match walk node k (nodeRead node n).left (path ++ [false]) t with
      | none => none
      | some t' => walk node k (nodeRead node n).right (path ++ [true]) t'

/-- The code table GEN fills (R140): nothing without a tree, the empty code for a root that is a leaf
(R142), else the walk from the root. -/
def generate (s : State) : Option (Table (Option Code)) :=
  if s.rootValid then
    if (s.nodeAt s.root).isLeaf then some (Table.put emptyCodes (s.nodeAt s.root).sym (some []))
    else walk s.node (Config.codeLenMax + 1) s.root [] emptyCodes
  else some emptyCodes

/-- The body of GEN (R140). -/
def generateBody (s : State) : Result :=
  match generate s with
  | some t => .next { s with code := t, phase := .ready }
  | none => .fault .pathRegisterOverflow

/-- GEN (R140). -/
def execGen (s : State) : Result := dispatch .gen generateBody s

end Sys2Proof.Machine
end

