-- ==== Sys2Proof/Machine/Encoder.lean ====
section
/-! DEFINITION. The encoder: EBEG, ENC, EEND (43_encoder.md R150 to R152). It reads CODE and never the
tree (R154). -/

namespace Sys2Proof.Machine

/-- EBEG (R150): OUT_LEN <- 0, MODE <- ENC. -/
def execEbeg (s : State) : Result :=
  dispatch .ebeg (fun s => .next { s with out := [], mode := .enc }) s

/-- The body of ENC (R151), its tests in the order written: filter, table, capacity. -/
def encodeByte (b : Byte) (s : State) : Result :=
  if isFiltered b then .next s
  else
    match Table.get s.code b with
    | none => .next (s.raise .noSymbol (encode (.enc b)))
    | some p =>
      if s.fits p.length then .next (s.emitAll (codeChars p))
      else .next (s.raise .resource (encode (.enc b)))

/-- ENC b (R151). -/
def execEnc (b : Byte) (s : State) : Result := dispatch (.enc b) (encodeByte b) s

/-- EEND (R152): MODE <- NONE; OUT stays. -/
def execEend (s : State) : Result :=
  dispatch .eend (fun s => .next { s with mode := .none }) s

end Sys2Proof.Machine
end

