-- ==== Sys2Proof/Machine/Decoder.lean ====
section
/-! DEFINITION. The decoder: DBEG, DEC, DEND (44_decoder.md R165 to R168). It reads NODE and ROOT and
never CODE or FREQ (R175). -/

namespace Sys2Proof.Machine

/-- DBEG (R165): OUT_LEN <- 0, CUR <- ROOT, TRUNC <- 0, MODE <- DEC. -/
def execDbeg (s : State) : Result :=
  dispatch .dbeg (fun s => .next { s with out := [], cur := s.root, trunc := false, mode := .dec }) s

/-- The walk of DEC along one edge (R166): at a leaf emit its byte and go back to the root, unless the
output buffer is full; at an internal node move there. -/
def walkEdge (w : Word) (d : Bool) (s : State) : Result :=
  let nxt := (s.nodeAt s.cur).child d
  if (s.nodeAt nxt).isLeaf then
    if s.fits 1 then .next { s.emitAll [(s.nodeAt nxt).sym] with cur := s.root }
    else .next (s.raise .resource w)
  else .next { s with cur := nxt }

/-- The body of DEC (R166): the three MALFORMED tests, then the walk. -/
def decodeChar (c : Byte) (s : State) : Result :=
  match charBit c with
  | none => .next (s.raise .malformed (encode (.dec c)))
  | some d =>
    if s.rootValid = false then .next (s.raise .malformed (encode (.dec c)))
    else if (s.nodeAt s.cur).isLeaf then .next (s.raise .malformed (encode (.dec c)))
    else walkEdge (encode (.dec c)) d s

/-- DEC c (R166). -/
def execDec (c : Byte) (s : State) : Result := dispatch (.dec c) (decodeChar c) s

/-- The bytes DEND emits: the lone byte `weight` times in the single-leaf tree, else none (R167, R168). -/
def endBytes (s : State) : List Byte :=
  if singleLeaf s then List.replicate (s.nodeAt s.root).weight.toNat (s.nodeAt s.root).sym else []

/-- The bytes of DEND fit; the test is made in the single-leaf tree alone (R167). -/
def endFits (s : State) : Bool :=
  if singleLeaf s then s.fits (s.nodeAt s.root).weight.toNat else true

/-- The body of DEND (R167). -/
def endDecode (s : State) : Result :=
  if endFits s then .next { s.emitAll (endBytes s) with trunc := truncAtEnd s, mode := .none }
  else .next (s.raise .resource (encode .dend))

/-- DEND (R167). -/
def execDend (s : State) : Result := dispatch .dend endDecode s

end Sys2Proof.Machine
end

