-- ==== Sys2Proof/Machine/HostPort.lean ====
section
/-! DEFINITION. The host read port (20_memory.md R61, R62): a function of the state and the address. -/

namespace Sys2Proof.Machine

/-- A register no wider than 32 bits on the port, its unused high bits 0 (R36). -/
def widen {n : Nat} (v : BitVec n) : Data := v.setWidth 32

/-- The registers at addresses 0 to 8 (R36). -/
def readRegister (s : State) (k : Nat) : Data :=
  match k with
  | 0 => s.status
  | 1 => widen s.fault.bits
  | 2 => widen s.faultCmd
  | 3 => widen s.nleaf
  | 4 => widen (BitVec.ofNat 9 s.nnode)
  | 5 => widen s.root
  | 6 => widen (BitVec.ofNat 9 s.qlen)
  | 7 => widen s.cur
  | 8 => BitVec.ofNat 32 s.outLen
  | _ => 0#32

/-- The link word of a node: [8:0] left, [17:9] right, [25:18] sym, [26] is_leaf, [31:27] 0 (R62). -/
def linkWord (x : Node) : Data :=
  0#5 ++ (BitVec.ofBool x.isLeaf ++ (x.sym ++ (x.right ++ x.left)))

/-- The two words of a node, the link word at the even address (R62). -/
def nodeWord (x : Node) (odd : Bool) : Data := if odd then x.weight else linkWord x

/-- The info word of a code record: [7:0] len, [8] valid (R62). -/
def infoWord (c : Option Code) : Data :=
  match c with
  | none => 0#32
  | some p => 0#23 ++ (1#1 ++ BitVec.ofNat 8 p.length)

/-- A bit-string as a number, its first bit least significant (R63 (e)). -/
def packBits : Code → Nat
  | [] => 0
  | d :: p => d.toNat + 2 * packBits p

/-- Bits word j of a code record: bit t is path step 32*j + t, 0 past the end of the code (R62). -/
def bitsWord (c : Option Code) (j : Nat) : Data :=
  match c with
  | none => 0#32
  | some p => BitVec.ofNat 32 (packBits (((p.take Config.codeLenMax).drop (32 * j)).take 32))

/-- What slot `k` of a store of `n` slots reads as through `f`: unspecified at or past the slots in use
(R41, R62), where it is a free value. -/
def readSlot {α : Type} (s : State) (a : Addr) (xs : List α) (k : Nat) (f : α → Data) : Data :=
  match xs[k]? with
  | some x => f x
  | none => Config.unspecifiedRead s.stamp a

/-- `HostRead(a)` (R61), the read map of R62 from the lowest window up. -/
def State.hostRead (s : State) (a : Addr) : Data :=
  let n := a.toNat
  if n < 0x100 then readRegister s n
  else if n < 0x200 then Table.get s.freq (BitVec.ofNat 8 (n - 0x100))
  else if n < 0x300 then readSlot s a s.pq (n - 0x200) widen
  else if n < 0x400 then 0#32
  else if n < 0x400 + 2 * Config.nodeMax then
    readSlot s a s.node ((n - 0x400) / 2) (fun x => nodeWord x (decide ((n - 0x400) % 2 = 1)))
  else if n < 0x800 then 0#32
  else if n < 0x900 then infoWord (Table.get s.code (BitVec.ofNat 8 (n - 0x800)))
  else if n < 0x1000 then 0#32
  else if n < 0x1800 then
    bitsWord (Table.get s.code (BitVec.ofNat 8 ((n - 0x1000) / 8))) ((n - 0x1000) % 8)
  else if n < 0x80000000 then 0#32
  else if n - 0x80000000 < s.outCap then readSlot s a s.out (n - 0x80000000) widen
  else 0#32

end Sys2Proof.Machine
end

