-- ==== Sys2Proof/Machine/Dispatch.lean ====
section
/-! DEFINITION. One arm per command (30_encoding.md R83), each the direct call of its meaning. -/

namespace Sys2Proof.Machine

def exec (i : Instr) (s : State) : Host.Outcome State Fault Refusal :=
  match i with
  | .nop => Sys2Proof.Machine.execNop s
  | .clr => Sys2Proof.Machine.execClr s
  | .cnt b => Sys2Proof.Machine.execCnt b s
  | .bld => Sys2Proof.Machine.execBld s
  | .gen => Sys2Proof.Machine.execGen s
  | .ebeg => Sys2Proof.Machine.execEbeg s
  | .enc b => Sys2Proof.Machine.execEnc b s
  | .eend => Sys2Proof.Machine.execEend s
  | .dbeg => Sys2Proof.Machine.execDbeg s
  | .dec c => Sys2Proof.Machine.execDec c s
  | .dend => Sys2Proof.Machine.execDend s

end Sys2Proof.Machine
end

