-- ==== Sys2Proof/Machine/Issue.lean ====
section
/-! DEFINITION. How the block takes what the host hands it (40_control_and_frequency.md R100;
60_exceptions.md R200; 70_reset_and_hazards.md R210), and sequences of commands (20_memory.md R67). -/

namespace Sys2Proof.Machine

/-- One command word handed to the block (R100): decoded, then run or rejected. -/
def issue (w : Word) (s : State) : Result :=
  match decode w with
  | .instr i => exec i s
  | .illegal _ => .next (rejectWord w s)

/-- The host's next input (R200): a reset request has the effect of CLR (R210), a command word is issued;
with none pending the block waits (R210, R216). -/
def takeInput (s : State) : Result :=
  match s.host with
  | [] => .next s
  | .rst :: rest => .next (s.taken rest).cleared
  | .cmd w :: rest => issue w (s.taken rest)

/-- The instruction of a row of the opcode table, its bits numbered as the table numbers them, put where
the block takes its next command: in front of the host's pending inputs. -/
def placeCommand (s : State) (nbits w : Nat) : State :=
  { s with host := .cmd (BitVec.ofNat 16 (w % 2 ^ nbits)) :: s.host }

/-- A command sequence issued in order, each wholly before the next (R67, R216). -/
def execAll : List Instr → State → Result
  | [], s => .next s
  | i :: is, s =>
    match exec i s with
    | .next t => execAll is t
    | .fault r => .fault r
    | .refused r => .refused r

end Sys2Proof.Machine
end

