-- ==== Sys2Proof/Machine/Step.lean ====
section
/-! DEFINITION. One step of the block: it takes the host's next input (00_scope.md R8). -/

namespace Sys2Proof.Machine

/-- One step (R8, R100). -/
def step (s : State) : Host.Outcome State Fault Refusal := takeInput s

/-- The state with an instruction where `step` takes its next command. -/
def State.withFetchWord (s : State) (nbits w : Nat) : State := placeCommand s nbits w

end Sys2Proof.Machine
end

