-- ==== Sys2Proof/Machine/Assembler.lean ====
section
/-! DEFINITION. The assembler's syntax (30_encoding.md R89) and the pseudo-instructions (R90). Text is a
list of characters, one list a line. -/

namespace Sys2Proof.Machine

/-- The pseudo-instructions of R90; a string is the list of its bytes. -/
inductive Pseudo where
  | counts (s : List Byte)
  | encs (s : List Byte)
  | decs (s : List Byte)
  | table
  | codec (s : List Byte)
  deriving DecidableEq, Repr

/-- ENCS "s": EBEG, one ENC a byte, EEND (R90). -/
def encodeSession (s : List Byte) : List Instr := .ebeg :: (s.map .enc ++ [.eend])

/-- DECS "s": DBEG, one DEC a byte, DEND (R90). -/
def decodeSession (s : List Byte) : List Instr := .dbeg :: (s.map .dec ++ [.dend])

/-- COUNTS "s": one CNT a byte (R90). -/
def countSession (s : List Byte) : List Instr := s.map .cnt

/-- TABLE: BLD, GEN (R90). -/
def tableSession : List Instr := [.bld, .gen]

/-- The expansion of each pseudo-instruction (R90). -/
def Pseudo.expand : Pseudo → List Instr
  | .counts s => countSession s
  | .encs s => encodeSession s
  | .decs s => decodeSession s
  | .table => tableSession
  | .codec s => .clr :: (countSession s ++ (tableSession ++ encodeSession s))

/-- What one line assembles to: its commands, none on a blank or comment line, or an assembly error. -/
inductive AsmLine where
  | commands (is : List Instr)
  | error
  deriving DecidableEq, Repr

/-- The mnemonic a word of letters spells, in upper case (R89). -/
def mnemonicOf (cs : List Char) : Option Mnemonic :=
  if cs = ['N', 'O', 'P'] then some .NOP
  else if cs = ['C', 'L', 'R'] then some .CLR
  else if cs = ['C', 'N', 'T'] then some .CNT
  else if cs = ['B', 'L', 'D'] then some .BLD
  else if cs = ['G', 'E', 'N'] then some .GEN
  else if cs = ['E', 'B', 'E', 'G'] then some .EBEG
  else if cs = ['E', 'N', 'C'] then some .ENC
  else if cs = ['E', 'E', 'N', 'D'] then some .EEND
  else if cs = ['D', 'B', 'E', 'G'] then some .DBEG
  else if cs = ['D', 'E', 'C'] then some .DEC
  else if cs = ['D', 'E', 'N', 'D'] then some .DEND
  else none

/-- The value of a digit in base 10 or 16, either case of letter (log entry 7). -/
def digitValue (base : Nat) (c : Char) : Option Nat :=
  let n := c.toNat
  let v :=
    if 0x30 ≤ n ∧ n ≤ 0x39 then some (n - 0x30)
    else if 0x41 ≤ n ∧ n ≤ 0x46 then some (n - 0x41 + 10)
    else if 0x61 ≤ n ∧ n ≤ 0x66 then some (n - 0x61 + 10)
    else none
  match v with
  | some d => if d < base then some d else none
  | none => none

/-- The number a run of digits spells, and the text after it. The run may have any length but zero, leading
zeros among them, where R89 gives no digit count (DESIGN CHOICE, log entry 7). -/
def readDigits (base : Nat) : Option Nat → List Char → Option (Nat × List Char)
  | acc, [] => acc.map fun n => (n, [])
  | acc, c :: cs =>
    match digitValue base c with
    | some d => readDigits base (some (acc.getD 0 * base + d)) cs
    | none => acc.map fun n => (n, c :: cs)

/-- A printable ASCII character (R89). -/
def isPrintable (c : Char) : Bool := decide (0x20 ≤ c.toNat ∧ c.toNat ≤ 0x7E)

/-- An operand: a quoted printable character, a hexadecimal number after 0x, or a decimal number (R89). -/
def readOperand (cs : List Char) : Option (Nat × List Char) :=
  match cs with
  | '\'' :: c :: '\'' :: rest => if isPrintable c then some (c.toNat, rest) else none
  | '0' :: 'x' :: rest => readDigits 16 none rest
  | rest => readDigits 10 none rest

/-- A quoted string's bytes up to the closing double quote (character 34), a backslash and an n together being
NEWLINE (R90), and the text after it. A character outside printable ASCII, or a string that is not closed, is an
assembly error, where R90 does not say which characters a string may hold (DESIGN CHOICE, log entry 7). -/
def readString : List Char → Option (List Byte × List Char)
  | [] => none
  | '\\' :: 'n' :: cs => (readString cs).map fun r => (Config.newline :: r.1, r.2)
  | c :: cs =>
    if c.toNat = 34 then some ([], cs)
    else if isPrintable c then (readString cs).map fun r => (BitVec.ofNat 8 c.toNat :: r.1, r.2)
    else none

/-- The text without its leading spaces. -/
def skipSpaces (cs : List Char) : List Char := cs.dropWhile fun c => c == ' '

/-- Nothing but spaces, or a comment from `;` to the end of the line (R89). -/
def isEnd (cs : List Char) : Bool :=
  match skipSpaces cs with
  | [] => true
  | c :: _ => c == ';'

/-- The operand part of a line: none at its end, else one operand after a space. -/
def readOperandPart (cs : List Char) : Option (Option Nat) :=
  if isEnd cs then some none
  else
    match cs with
    | ' ' :: rest =>
      match readOperand (skipSpaces rest) with
      | some (n, after) => if isEnd after then some (some n) else none
      | none => none
    | _ => none

/-- The string part of a pseudo-instruction's line. -/
def readStringPart (cs : List Char) : Option (List Byte) :=
  match cs with
  | ' ' :: rest =>
    match skipSpaces rest with
    | q :: body =>
      if q.toNat = 34 then
        match readString body with
        | some (s, after) => if isEnd after then some s else none
        | none => none
      else none
    | [] => none
  | _ => none

/-- The pseudo-instruction a line spells (R90). -/
def readPseudo (word rest : List Char) : Option Pseudo :=
  if word = ['T', 'A', 'B', 'L', 'E'] then if isEnd rest then some .table else none
  else if word = ['C', 'O', 'U', 'N', 'T', 'S'] then (readStringPart rest).map .counts
  else if word = ['E', 'N', 'C', 'S'] then (readStringPart rest).map .encs
  else if word = ['D', 'E', 'C', 'S'] then (readStringPart rest).map .decs
  else if word = ['C', 'O', 'D', 'E', 'C'] then (readStringPart rest).map .codec
  else none

/-- A letter of a mnemonic (R89: upper case). -/
def isUpper (c : Char) : Bool := decide (0x41 ≤ c.toNat ∧ c.toNat ≤ 0x5A)

/-- One line of assembly (R89, R90). -/
def assembleLine (line : List Char) : AsmLine :=
  let cs := skipSpaces line
  if isEnd cs then .commands []
  else
    let word := cs.takeWhile isUpper
    let rest := cs.dropWhile isUpper
    match mnemonicOf word with
    | some m =>
      match readOperandPart rest with
      | some operand =>
        match AsmCommand.toInstr { mnemonic := m, operand := operand } with
        | some i => .commands [i]
        | none => .error
      | none => .error
    | none =>
      match readPseudo word rest with
      | some p => .commands p.expand
      | none => .error

/-- A whole text: the commands of its lines in order, or none at the first assembly error (R89). -/
def assemble : List (List Char) → Option (List Instr)
  | [] => some []
  | l :: ls =>
    match assembleLine l with
    | .error => none
    | .commands is => (assemble ls).map fun rest => is ++ rest

end Sys2Proof.Machine
end

