-- ==== Sys2Proof/Safety.lean ====
section
/-! DEFINITION. What a state of the block must satisfy, in the terms the claims use: the values that
never occur (10_state.md R42), the shape of the tree (R38), the code table as the tree's root-to-leaf
paths (42_code_table.md R141), the decoder's position (44_decoder.md R169), and a run that ended well
(70_reset_and_hazards.md R216). -/

namespace Sys2Proof.Machine

/-- Every piece of the block's state has its reset value, the table of R40; the stores NODE, PQ and OUT hold
no specified slot. -/
structure State.atReset (s : State) : Prop where
  phase : s.phase = .idle
  mode : s.mode = .none
  freq : ∀ b, Table.get s.freq b = 0#32
  nleaf : s.nleaf = 0#9
  nnode : s.nnode = 0
  qlen : s.qlen = 0
  root : s.root = 0x1FF#9
  root_valid : s.rootValid = false
  code : ∀ b, Table.get s.code b = none
  cur : s.cur = 0x1FF#9
  out_len : s.outLen = 0
  fault : s.fault = .none
  fault_cmd : s.faultCmd = 0#16
  trunc : s.trunc = false

/-- A run ended well: no fault and no open session (R216). -/
def State.endedWell (s : State) : Prop := s.fault = .none ∧ s.mode = .none

/-- The symbol of the leaf that a bit-string leads to from node `i`, one edge a bit; none where the walk
passes a leaf before the bits end, or ends on an internal node (R12 "code", R63 (a)). -/
def leafAt (node : List Node) : Idx → Code → Option Byte
  | i, [] => if (nodeRead node i).isLeaf then some (nodeRead node i).sym else none
  | i, d :: p => if (nodeRead node i).isLeaf then none else leafAt node ((nodeRead node i).child d) p

/-- The registers and stores taken together (R24, R25, R28, R29, R32, R33, R42). -/
structure Bookkeeping (s : State) : Prop where
  newline_uncounted : Table.get s.freq Config.newline = 0#32
  queue_empty : s.pq = []
  leaves_bound : s.nleaf.toNat ≤ 256
  node_count : s.nnode = 2 * s.nleaf.toNat - 1
  output_fits : s.outLen ≤ s.outCap
  root_valid : s.rootValid = true ↔ s.phase ≠ .idle ∧ 1 ≤ s.nleaf.toNat
  root_index : s.root = if s.rootValid then BitVec.ofNat 9 (s.nnode - 1) else Config.nil
  idle_no_leaf : s.phase = .idle → s.nleaf = 0#9
  session_ready : s.mode ≠ .none → s.phase = .ready
  no_fault_word : s.fault = .none → s.faultCmd = 0#16
  fault_no_output : s.fault ≠ .none → s.out = [] ∧ s.mode = .none

/-- Which of two nodes the queue pops first (R120, R132): the lighter one, and of two of equal weight the one
created earlier, which has the smaller index (R27). -/
def poppedBefore (node : List Node) (a c : Idx) : Prop :=
  (nodeRead node a).weight.toNat < (nodeRead node c).weight.toNat ∨
    ((nodeRead node a).weight = (nodeRead node c).weight ∧ a.toNat < c.toNat)

/-- Node `j` waits in the queue when node `i` has just been made of its two children: it was made before `i`,
and no internal node up to `i` has it as a child (R125). -/
def waitsAt (node : List Node) (i : Nat) (j : Idx) : Prop :=
  j.toNat < i ∧ ∀ (k : Nat) (y : Node), k ≤ i → node[k]? = some y → y.isLeaf = false →
    y.left ≠ j ∧ y.right ≠ j

/-- The tree invariants of R38, with the slot order of R27, the leaf contents of R130 and the merge order of R125
and R132. Leaves stand in slots 0 to NLEAF - 1 in ascending byte order, internal nodes after them. -/
structure TreeShape (s : State) : Prop where
  leaf : ∀ (i : Nat) (x : Node), s.node[i]? = some x → i < s.nleaf.toNat →
    x.isLeaf = true ∧ x.left = Config.nil ∧ x.right = Config.nil ∧
      x.weight = Table.get s.freq x.sym ∧ 1 ≤ x.weight.toNat
  leaf_order : ∀ (i j : Nat) (x y : Node), s.node[i]? = some x → s.node[j]? = some y → i < j → j < s.nleaf.toNat →
    x.sym < y.sym
  leaf_all : s.phase ≠ .idle → ∀ b, Table.get s.freq b ≠ 0#32 →
    ∃ (i : Nat) (x : Node), i < s.nleaf.toNat ∧ s.node[i]? = some x ∧ x.sym = b
  internal : ∀ (i : Nat) (x : Node), s.node[i]? = some x → s.nleaf.toNat ≤ i →
    x.isLeaf = false ∧ x.sym = Config.marker ∧ x.left.toNat < i ∧ x.right.toNat < i ∧
      x.left ≠ x.right ∧
      x.weight.toNat = (s.nodeAt x.left).weight.toNat + (s.nodeAt x.right).weight.toNat
  has_parent : ∀ c, c + 1 < s.nnode →
    ∃ (i : Nat) (x : Node), s.node[i]? = some x ∧ x.isLeaf = false ∧ (x.left.toNat = c ∨ x.right.toNat = c)
  one_parent : ∀ (i j : Nat) (x y : Node) (c : Idx), s.node[i]? = some x → s.node[j]? = some y →
    x.isLeaf = false → y.isLeaf = false →
    (x.left = c ∨ x.right = c) → (y.left = c ∨ y.right = c) → i = j
  merge_order : ∀ (i : Nat) (x : Node), s.node[i]? = some x → x.isLeaf = false →
    poppedBefore s.node x.left x.right ∧ ∀ j, waitsAt s.node i j → poppedBefore s.node x.right j
  root_weight : s.rootValid = true → (s.nodeAt s.root).weight.toNat = totalCount s.freq

/-- The code table: empty until GEN has run, then exactly the root-to-leaf paths of the tree (R30, R141,
R142, R144). -/
structure CodesOfTree (s : State) : Prop where
  before : s.phase ≠ .ready → ∀ b, Table.get s.code b = none
  after : s.phase = .ready → ∀ b p, Table.get s.code b = some p ↔
    s.rootValid = true ∧ leafAt s.node s.root p = some b

/-- The decoder's current node (R22, R31, R167, R169). -/
structure DecoderPosition (s : State) : Prop where
  in_range : s.cur = Config.nil ∨ s.cur.toNat < s.nnode
  in_session : s.mode = .dec → s.rootValid = true → s.cur.toNat < s.nnode
  not_leaf : s.mode = .dec → s.rootValid = true → (s.nodeAt s.root).isLeaf = false →
    (s.nodeAt s.cur).isLeaf = false
  lone_at_root : s.mode = .dec → singleLeaf s = true → s.cur = s.root ∧ s.out = []

/-- The invariant of the block: all four together. -/
structure State.Inv (s : State) : Prop where
  bookkeeping : Bookkeeping s
  tree : TreeShape s
  codes : CodesOfTree s
  position : DecoderPosition s

/-- No step from this state stops: it answers a next state (R213). -/
def State.goesOn (s : State) : Prop := ∃ t, step s = .next t

end Sys2Proof.Machine
end

