-- ==== Sys2Proof/Certificates/Slice0/Obligations.lean ====
section
/-! DEFINITION. The statements for the provers. `issue w s` is what the block does with the command word
`w` (40_control_and_frequency.md R100), `exec i s` what it does with the command `i`. -/

open Sys2Proof Sys2Proof.Machine

/-! ## Encoding -/

/-- Words of the table in 95_test_vectors.md 2.1 read as that table says. -/
def Obligations.DecodeReadsTheSpecWords : Prop :=
  decode 0x0000#16 = .instr .nop ∧ decode 0x1000#16 = .instr .clr ∧
  decode 0x2061#16 = .instr (.cnt 0x61#8) ∧ decode 0x3000#16 = .instr .bld ∧
  decode 0x4000#16 = .instr .gen ∧ decode 0x5000#16 = .instr .ebeg ∧
  decode 0x6000#16 = .instr (.enc 0x00#8) ∧ decode 0x7000#16 = .instr .eend ∧
  decode 0x8000#16 = .instr .dbeg ∧ decode 0x9041#16 = .instr (.dec 0x41#8) ∧
  decode 0xA000#16 = .instr .dend ∧ decode 0xB000#16 = .illegal .reservedOpcode ∧
  decode 0x2161#16 = .illegal .reservedBits ∧ decode 0x3001#16 = .illegal .operandOnFormatZ

/-- R87: `decode(encode(c)) = c` for every command. -/
def Obligations.DecodeOfEncodeIsTheCommand : Prop :=
  ∀ i : Instr, i.WellFormed = true → decode (encode i) = .instr i

/-- R87: `encode(decode(w)) = w` for every legal word. -/
def Obligations.EncodeOfDecodeIsTheWord : Prop :=
  ∀ (w : Word) (i : Instr), decode w = .instr i → encode i = w

/-- R83: each row of the opcode map selects exactly the words that decode to its command; the reserved
opcodes 0xB to 0xF select none. -/
def Obligations.OpcodeMapSelectsTheCommand : Prop :=
  (∀ r ∈ opcodeMap, ∀ w : Word,
    (w &&& r.maskBits) = r.matchBits ↔ ∃ i, decode w = .instr i ∧ i.mnemonic = r.mnemonic) ∧
  ∀ (w : Word) (s : State), w.extractLsb' 12 4 > 0xA#4 →
    (∀ r ∈ opcodeMap, (w &&& r.maskBits) ≠ r.matchBits) ∧
    (s.fault = .none → issue w s = .next (s.raise .illegalCmd w))

/-- R84: a word is illegal exactly when its opcode is above 0xA, or its reserved bits are not 0, or a
format Z opcode stands before an operand field that is not 0; what the block does with one. -/
def Obligations.IllegalWordsAreRejected : Prop :=
  ∀ w : Word,
    ((∃ y, decode w = .illegal y) ↔
      (w.extractLsb' 12 4 > 0xA#4 ∨ w.extractLsb' 8 4 ≠ 0#4 ∨
        (w.extractLsb' 12 4 ∈ [0x0#4, 0x1#4, 0x3#4, 0x4#4, 0x5#4, 0x7#4, 0x8#4, 0xA#4] ∧
          w.extractLsb' 0 8 ≠ 0#8))) ∧
    ∀ (y : IllegalWord) (s : State), decode w = .illegal y →
      (s.fault = .none → issue w s = .next (s.raise .illegalCmd w)) ∧
      (s.fault ≠ .none → issue w s = .next s)

/-! ## The step -/

/-- A step takes the host's next input: a command word that decodes is run, one that does not is
rejected, and with no input the block waits (R100, R216). The list of inputs and the count of them are the
model's choice (log entries 2 and 3). -/
def Obligations.StepRunsTheDecodedCommand : Prop :=
  ∀ s : State,
    (∀ w rest i, s.host = .cmd w :: rest → decode w = .instr i →
      step s = exec i { s with host := rest, stamp := s.stamp + 1 }) ∧
    (∀ w rest y, s.host = .cmd w :: rest → decode w = .illegal y →
      step s = .next (rejectWord w { s with host := rest, stamp := s.stamp + 1 })) ∧
    (∀ i : Instr, step (s.withFetchWord 16 (encode i).toNat) = exec i { s with stamp := s.stamp + 1 }) ∧
    (s.host = [] → step s = .next s)

/-- R40: the values of the reset state, which are also those that CLR leaves. -/
def Obligations.ResetGivesTheResetValues : Prop :=
  State.reset.atReset ∧
  State.reset.resp = 0#3 ∧ State.reset.faultO = false ∧ State.reset.status = 0#32 ∧
  ∀ s : State, ∃ t, exec .clr s = .next t ∧ t.atReset

/-- R210 as the model has it. That a reset request is the first of a list of the host's inputs, that the list is
empty at reset and that reset and CLR leave the inputs after it are log entry 2's choice; the count of inputs is
entry 3's; that the capacity is a field no command changes is entry 1's. -/
def Obligations.ResetRequestResetsTheBlock : Prop :=
  step State.reset = .next State.reset ∧
  (∀ (s : State) (rest : List HostInput), s.host = .rst :: rest →
    ∃ t, step s = .next t ∧ t.atReset ∧ t.resp = 0#3 ∧ t.faultO = false ∧ t.host = rest ∧
      t.stamp = s.stamp + 1 ∧ t.outCap = s.outCap ∧
      exec .clr { s with host := rest, stamp := s.stamp + 1 } = .next t) ∧
  ∀ s : State, ∃ t, exec .clr s = .next t ∧ t.outCap = s.outCap ∧ t.host = s.host ∧ t.stamp = s.stamp

/-- The capacity of the block's buffer is within the range R5 gives the open parameter. That it is a free value
carried in the state is the model's choice (log entry 1). -/
def Obligations.OutputCapacityIsInRange : Prop :=
  1 ≤ State.reset.outCap ∧ State.reset.outCap ≤ 2 ^ 31

/-- The conditions under which nothing in the machine stops: an invariant state goes on (R213, "Every
command ends", "The block cannot hang"). -/
def Obligations.InvariantStatesGoOn : Prop :=
  ∀ s : State, s.Inv → s.goesOn

/-! ## Dispatch, NOP, CLR, CNT -/

/-- R102: the body of NOP is empty. -/
def Obligations.NopChangesNothing : Prop :=
  encode .nop = 0x0000#16 ∧ ∀ s : State, exec .nop s = .next s

/-- R103: CLR takes everything to the reset values, while faulted too; only the word 0x1000 is CLR. -/
def Obligations.ClrResetsEverything : Prop :=
  (∀ w : Word, decode w = .instr .clr ↔ w = 0x1000#16) ∧
  exec .clr State.reset = .next State.reset ∧
  ∀ s : State,
    (∃ t, exec .clr s = .next t ∧ t.atReset ∧ exec .clr t = .next t) ∧
    (s.fault ≠ .none → issue 0x1001#16 s = .next s)

/-- R104: CNT b in every case. -/
def Obligations.CntCountsOneByte : Prop :=
  ∀ (s : State) (b : Byte),
    encode (.cnt b) = 0x2000#16 ||| b.setWidth 16 ∧
    (s.fault ≠ .none → exec (.cnt b) s = .next s) ∧
    (s.fault = .none → s.phase ≠ .idle →
      exec (.cnt b) s = .next (s.raise .illegalCmd (encode (.cnt b)))) ∧
    (s.fault = .none → s.phase = .idle → b = 0x0A#8 → exec (.cnt b) s = .next s) ∧
    (s.fault = .none → s.phase = .idle → b ≠ 0x0A#8 → (Table.get s.freq b).toNat = 4294967295 →
      exec (.cnt b) s = .next (s.raise .resource (encode (.cnt b)))) ∧
    (s.fault = .none → s.phase = .idle → b ≠ 0x0A#8 → (Table.get s.freq b).toNat ≠ 4294967295 →
      ∃ t, exec (.cnt b) s = .next t ∧ t = { s with freq := t.freq } ∧
        (Table.get t.freq b).toNat = (Table.get s.freq b).toNat + 1 ∧
        ∀ c, c ≠ b → Table.get t.freq c = Table.get s.freq c)

/-- R105: after counting a sequence of bytes each slot but NEWLINE's has gone up by the number of times
its byte occurs. -/
def Obligations.CountingAddsOccurrences : Prop :=
  ∀ (s : State) (bs : List Byte), s.fault = .none → s.phase = .idle →
    (∀ b, b ≠ 0x0A#8 → (Table.get s.freq b).toNat + bs.count b ≤ 4294967295) →
    ∃ t, execAll (countSession bs) s = .next t ∧ t = { s with freq := t.freq } ∧
      (∀ b, b ≠ 0x0A#8 → (Table.get t.freq b).toNat = (Table.get s.freq b).toNat + bs.count b) ∧
      Table.get t.freq 0x0A#8 = Table.get s.freq 0x0A#8

/-- R101: which command is refused in which state, and the only changes of PHASE and MODE. -/
def Obligations.AdmissionTableIsTheControlFlow : Prop :=
  (∀ s : State, s.fault = .none →
    exec .nop s ≠ .next (s.raise .illegalCmd (encode .nop)) ∧
    exec .clr s ≠ .next (s.raise .illegalCmd (encode .clr)) ∧
    (∀ b, exec (.cnt b) s = .next (s.raise .illegalCmd (encode (.cnt b))) ↔ s.phase ≠ .idle) ∧
    (exec .bld s = .next (s.raise .illegalCmd (encode .bld)) ↔ s.phase ≠ .idle) ∧
    (exec .gen s = .next (s.raise .illegalCmd (encode .gen)) ↔ s.phase ≠ .built) ∧
    (exec .ebeg s = .next (s.raise .illegalCmd (encode .ebeg)) ↔
      ¬ (s.phase = .ready ∧ s.mode = .none)) ∧
    (∀ b, exec (.enc b) s = .next (s.raise .illegalCmd (encode (.enc b))) ↔ s.mode ≠ .enc) ∧
    (exec .eend s = .next (s.raise .illegalCmd (encode .eend)) ↔ s.mode ≠ .enc) ∧
    (exec .dbeg s = .next (s.raise .illegalCmd (encode .dbeg)) ↔
      ¬ (s.phase = .ready ∧ s.mode = .none)) ∧
    (∀ c, exec (.dec c) s = .next (s.raise .illegalCmd (encode (.dec c))) ↔ s.mode ≠ .dec) ∧
    (exec .dend s = .next (s.raise .illegalCmd (encode .dend)) ↔ s.mode ≠ .dec)) ∧
  (∀ (i : Instr) (s t : State), exec i s = .next t → t.phase ≠ s.phase →
    (i = .bld ∧ s.phase = .idle ∧ t.phase = .built) ∨
    (i = .gen ∧ s.phase = .built ∧ t.phase = .ready) ∨ (i = .clr ∧ t.phase = .idle)) ∧
  (∀ (i : Instr) (s t : State), exec i s = .next t → t.mode ≠ s.mode →
    (i = .ebeg ∧ s.mode = .none ∧ t.mode = .enc) ∨ (i = .eend ∧ s.mode = .enc ∧ t.mode = .none) ∨
    (i = .dbeg ∧ s.mode = .none ∧ t.mode = .dec) ∨ (i = .dend ∧ s.mode = .dec ∧ t.mode = .none) ∨
    (t.fault ≠ .none ∧ t.mode = .none) ∨ (i = .clr ∧ t.mode = .none))

/-! ## Faults -/

/-- R191: a word that raises a fault makes the four writes of fault entry and nothing else. -/
def Obligations.FaultsArePrecise : Prop :=
  ∀ (w : Word) (s t : State), s.fault = .none → issue w s = .next t → t.fault ≠ .none →
    t.faultCmd = w ∧ t.outLen = 0 ∧ t.mode = .none ∧ t.resp = t.fault.bits ∧ t.faultO = true ∧
    t = { s with fault := t.fault, faultCmd := w, out := [], mode := .none }

/-- R192: while faulted every word but 0x1000 is ignored, legal or not. -/
def Obligations.FaultedBlockIgnoresWords : Prop :=
  ∀ (w : Word) (s : State), s.fault ≠ .none → w ≠ 0x1000#16 →
    issue w s = .next s ∧ s.resp = s.fault.bits

/-- R193: only CLR and reset leave the faulted state, and both to the reset values. -/
def Obligations.FaultIsLeftOnlyByClrOrReset : Prop :=
  ∀ s t : State, s.fault ≠ .none → step s = .next t →
    (t.fault = .none → t.atReset ∧
      ∃ rest, s.host = .rst :: rest ∨ s.host = .cmd 0x1000#16 :: rest) ∧
    (t.fault ≠ .none → t = { s with host := t.host, stamp := t.stamp })

/-- R186: the five causes of RESOURCE; in (a) the byte is not NEWLINE, which CNT drops first (R104). -/
def Obligations.ResourceHasFiveCauses : Prop :=
  ∀ (w : Word) (s t : State), s.fault = .none → issue w s = .next t →
    (t.fault = .resource ↔
      (∃ b, decode w = .instr (.cnt b) ∧ s.phase = .idle ∧ b ≠ 0x0A#8 ∧
        (Table.get s.freq b).toNat = 4294967295) ∨
      (decode w = .instr .bld ∧ s.phase = .idle ∧ totalCount s.freq > 4294967295) ∨
      (∃ b p, decode w = .instr (.enc b) ∧ s.mode = .enc ∧ b ≠ 0x0A#8 ∧
        Table.get s.code b = some p ∧ s.outLen + p.length > s.outCap) ∨
      (∃ d, decode w = .instr (.dec (bitChar d)) ∧ s.mode = .dec ∧ s.rootValid = true ∧
        (s.nodeAt s.cur).isLeaf = false ∧ (s.nodeAt ((s.nodeAt s.cur).child d)).isLeaf = true ∧
        s.outLen + 1 > s.outCap) ∨
      (decode w = .instr .dend ∧ s.mode = .dec ∧ s.rootValid = true ∧
        (s.nodeAt s.root).isLeaf = true ∧
        s.outLen + (s.nodeAt s.root).weight.toNat > s.outCap))

/-- R187: the one cause of NO_SYMBOL. -/
def Obligations.NoSymbolHasOneCause : Prop :=
  ∀ (w : Word) (s t : State), s.fault = .none → issue w s = .next t →
    (t.fault = .noSymbol ↔
      ∃ b, decode w = .instr (.enc b) ∧ s.mode = .enc ∧ b ≠ 0x0A#8 ∧ Table.get s.code b = none)

/-- R188: the three causes of MALFORMED, all in DEC. -/
def Obligations.MalformedHasThreeCauses : Prop :=
  ∀ (w : Word) (s t : State), s.fault = .none → issue w s = .next t →
    (t.fault = .malformed ↔
      ∃ c, decode w = .instr (.dec c) ∧ s.mode = .dec ∧
        ((c ≠ 0x30#8 ∧ c ≠ 0x31#8) ∨ s.rootValid = false ∨ (s.nodeAt s.cur).isLeaf = true))

/-- R189: the two causes of ILLEGAL_CMD. -/
def Obligations.IllegalCmdHasTwoCauses : Prop :=
  ∀ (w : Word) (s t : State), s.fault = .none → issue w s = .next t →
    (t.fault = .illegalCmd ↔
      (∃ y, decode w = .illegal y) ∨ ∃ i, decode w = .instr i ∧ admitted i s = false)

/-! ## The queue and the tree builder -/

/-- R121: the new index goes before the first queued one whose weight is strictly greater; every index
before that place has a weight at most the new one's; the leaves never fill more than 256 places, and the
merge loop takes the front two off the queue before it inserts one, so the queue gets shorter. -/
def Obligations.InsertIsStableAndOrdered : Prop :=
  (∀ (wt : Idx → Weight) (n : Idx) (q : List Idx), ∃ p, p ≤ q.length ∧
    pqInsert wt n q = q.take p ++ n :: q.drop p ∧
    (∀ k m, k < p → q[k]? = some m → (wt m).toNat ≤ (wt n).toNat) ∧
    (∀ m, q[p]? = some m → (wt n).toNat < (wt m).toNat)) ∧
  (∀ freq, (addLeaves freq).pq.length ≤ 256) ∧
  ∀ (node : List Node) (a c : Idx) (rest : List Idx),
    (mergeLoop 1 { node := node, pq := a :: c :: rest }).pq =
      pqInsert (fun i => (nodeRead (mergeLoop 1 { node := node, pq := a :: c :: rest }).node i).weight)
        (BitVec.ofNat 9 node.length) rest ∧
    (mergeLoop 1 { node := node, pq := a :: c :: rest }).pq.length + 1 = (a :: c :: rest).length ∧
    ∀ k, mergeLoop (k + 1) { node := node, pq := a :: c :: rest } =
      mergeLoop k (mergeLoop 1 { node := node, pq := a :: c :: rest })

/-- R120: an ordered queue stays in non-decreasing weight order when a node is inserted, and holds the same
nodes and the new one. -/
def Obligations.InsertKeepsTheQueueOrdered : Prop :=
  ∀ (wt : Idx → Weight) (n : Idx) (q : List Idx),
    q.Pairwise (fun a b => (wt a).toNat ≤ (wt b).toNat) →
    (pqInsert wt n q).Pairwise (fun a b => (wt a).toNat ≤ (wt b).toNat) ∧
    (pqInsert wt n q).Perm (n :: q)

/-- R125: while more than one node is queued, the front one becomes the left child and the next one the right
child of a new internal node of their summed weight, which goes back in by `pq_insert`; with one node or none
the loop is over; on a queue of n nodes it makes n - 1 internal nodes, NLEAF - 1 in BLD. -/
def Obligations.MergeTakesTheFrontTwo : Prop :=
  (∀ (k : Nat) (node : List Node) (a c : Idx) (rest : List Idx),
    ∃ x : Node, x.isLeaf = false ∧ x.left = a ∧ x.right = c ∧
      x.weight = (nodeRead node a).weight + (nodeRead node c).weight ∧
      mergeLoop (k + 1) { node := node, pq := a :: c :: rest } =
        mergeLoop k { node := node ++ [x],
                      pq := pqInsert (fun i => (nodeRead (node ++ [x]) i).weight)
                        (BitVec.ofNat 9 node.length) rest }) ∧
  (∀ (k : Nat) (b : Builder), b.pq.length ≤ 1 → mergeLoop k b = b) ∧
  (∀ (k : Nat) (b : Builder), 1 ≤ b.pq.length → b.pq.length ≤ k + 1 →
    (mergeLoop k b).pq.length = 1 ∧ (mergeLoop k b).node.length = b.node.length + (b.pq.length - 1)) ∧
  ∀ freq, presentBytes freq ≠ [] →
    (buildTree freq).pq.length = 1 ∧
    (buildTree freq).node.length = (presentBytes freq).length + ((presentBytes freq).length - 1)

/-- R123, R125, R129, R130, R132: a BLD that does not fault leaves the tree of the counts. `TreeShape` says, with
the rest of R38, that each internal node is made of the two nodes the queue pops first at that point, the first
one left: the lighter before the heavier, and of equal weights the earlier one first. -/
def Obligations.BldBuildsTheTree : Prop :=
  ∀ s : State, s.fault = .none → s.phase = .idle → totalCount s.freq ≤ 4294967295 →
    ∃ t, exec .bld s = .next t ∧
      t = { s with node := t.node, nleaf := t.nleaf, pq := [], root := t.root,
                   rootValid := t.rootValid, phase := .built } ∧
      TreeShape t ∧
      t.nleaf.toNat = (allBytes.filter fun b => Table.get s.freq b != 0#32).length ∧
      (t.node.take t.nleaf.toNat).map Node.sym =
        (allBytes.filter fun b => Table.get s.freq b != 0#32) ∧
      t.nnode = 2 * t.nleaf.toNat - 1 ∧
      (t.rootValid = true ↔ 1 ≤ t.nleaf.toNat) ∧
      (t.rootValid = true → t.root.toNat = t.nnode - 1 ∧
        (t.nodeAt t.root).weight.toNat = totalCount s.freq ∧
        ∀ p b, leafAt t.node t.root p = some b → p.length ≤ t.nleaf.toNat - 1 ∧ p.length ≤ 255)

/-- R129: BLD tests the total before its first write. -/
def Obligations.BldOverflowBuildsNothing : Prop :=
  ∀ s : State, s.fault = .none → s.phase = .idle → totalCount s.freq > 4294967295 →
    exec .bld s = .next { s with fault := .resource, faultCmd := 0x3000#16, out := [], mode := .none }

/-- R127: with no byte counted BLD makes no tree, GEN no code, and an empty encode and an empty decode
give an empty output and no fault. -/
def Obligations.EmptyInputHasNoTree : Prop :=
  ∀ s : State, s.fault = .none → s.phase = .idle → s.mode = .none →
    (∀ b, Table.get s.freq b = 0#32) →
    exec .bld s = .next { s with node := [], nleaf := 0#9, pq := [], root := 0x1FF#9,
                                 rootValid := false, phase := .built } ∧
    ∃ t, execAll tableSession s = .next t ∧ t.fault = .none ∧ t.phase = .ready ∧
      (∀ b, Table.get t.code b = none) ∧
      (∃ u, execAll (encodeSession []) t = .next u ∧ u.outLen = 0 ∧ u.fault = .none) ∧
      (∃ u, execAll (decodeSession []) t = .next u ∧ u.outLen = 0 ∧ u.fault = .none ∧
        u.trunc = false)

/-- R128 and R142: with one distinct byte the tree is its leaf and the code is the empty string. -/
def Obligations.OneByteGivesTheSingleLeaf : Prop :=
  ∀ (s : State) (x : Byte), s.fault = .none → s.phase = .idle →
    Table.get s.freq x ≠ 0#32 → (∀ b, b ≠ x → Table.get s.freq b = 0#32) →
    exec .bld s = .next { s with
      node := [{ isLeaf := true, sym := x, weight := Table.get s.freq x, left := 0x1FF#9,
                 right := 0x1FF#9 }],
      nleaf := 1#9, pq := [], root := 0#9, rootValid := true, phase := .built } ∧
    ∃ t, execAll tableSession s = .next t ∧ t.fault = .none ∧ t.phase = .ready ∧
      ∀ b, Table.get t.code b = if b = x then some [] else none

/-- R131: the tree and the code table are functions of the counts alone, and the order of the CNT commands
does not matter. -/
def Obligations.BuildDependsOnCountsAlone : Prop :=
  (∀ s u t v : State, s.freq = u.freq → s.fault = .none → u.fault = .none →
    exec .bld s = .next t → exec .bld u = .next v → t.fault = .none → v.fault = .none →
    t.node = v.node ∧ t.nleaf = v.nleaf ∧ t.nnode = v.nnode ∧ t.root = v.root ∧
      t.rootValid = v.rootValid) ∧
  (∀ s u t v : State, s.freq = u.freq → execAll tableSession s = .next t →
    execAll tableSession u = .next v → t.fault = .none → v.fault = .none → t.code = v.code) ∧
  (∀ (s t v : State) (bs cs : List Byte), bs.Perm cs →
    execAll (countSession bs ++ [.bld]) s = .next t →
    execAll (countSession cs ++ [.bld]) s = .next v → t.fault = .none → v.fault = .none → t = v)

/-- R133: once PHASE has left IDLE no command but CLR writes the tree. -/
def Obligations.TreeIsFrozen : Prop :=
  ∀ (i : Instr) (s t : State), s.phase ≠ .idle → i ≠ .clr → exec i s = .next t →
    t.node = s.node ∧ t.nleaf = s.nleaf ∧ t.nnode = s.nnode ∧ t.root = s.root ∧
      t.rootValid = s.rootValid

/-! ## The code-table generator -/

/-- R140, R141, R142: GEN completes on every tree of the block, and the code of a byte is exactly the path
from the root to its leaf. -/
def Obligations.GenStoresTheRootToLeafPaths : Prop :=
  ∀ s : State, s.Inv → s.fault = .none → s.phase = .built →
    ∃ t, exec .gen s = .next t ∧ t = { s with code := t.code, phase := .ready } ∧
      ∀ b p, Table.get t.code b = some p ↔
        s.rootValid = true ∧ leafAt s.node s.root p = some b

/-- R144: one entry a leaf, no other entry, and none for NEWLINE; encoding a byte with none is a fault. -/
def Obligations.OneCodePerLeaf : Prop :=
  ∀ s : State, s.Inv → s.phase = .ready →
    (∀ b, Table.get s.code b ≠ none ↔ 1 ≤ (Table.get s.freq b).toNat) ∧
    (∀ b, Table.get s.code b ≠ none ↔
      ∃ (i : Nat) (x : Node), s.node[i]? = some x ∧ x.isLeaf = true ∧ x.sym = b) ∧
    (allBytes.filter fun b => (Table.get s.code b).isSome).length = s.nleaf.toNat ∧
    Table.get s.code 0x0A#8 = none ∧
    (∀ b, s.fault = .none → s.mode = .enc → b ≠ 0x0A#8 → Table.get s.code b = none →
      exec (.enc b) s = .next (s.raise .noSymbol (encode (.enc b))))

/-- R145: no code is the first part of another, and with two leaves or more no code is empty. -/
def Obligations.CodesArePrefixFree : Prop :=
  ∀ s : State, s.Inv →
    (∀ a b p q, a ≠ b → Table.get s.code a = some p → Table.get s.code b = some q → ¬ p <+: q) ∧
    (∀ b p, s.nleaf.toNat = 1 → Table.get s.code b = some p → p = []) ∧
    (∀ b p, 2 ≤ s.nleaf.toNat → Table.get s.code b = some p → 1 ≤ p.length)

/-- R143: a code is shorter than the number of leaves, so that it fits the 255-bit path register, and no
code is longer than 254 bits. -/
def Obligations.CodesFitThePathRegister : Prop :=
  ∀ s : State, s.Inv → ∀ b p, Table.get s.code b = some p →
    p.length ≤ s.nleaf.toNat - 1 ∧ p.length ≤ 254

/-- R146: once GEN has run no command but CLR writes the code table. -/
def Obligations.CodeTableIsFrozen : Prop :=
  ∀ (i : Instr) (s t : State), s.phase = .ready → i ≠ .clr → exec i s = .next t → t.code = s.code

/-! ## The encoder -/

/-- R150: EBEG in every case. -/
def Obligations.EbegOpensAnEncodeSession : Prop :=
  ∀ s : State, encode .ebeg = 0x5000#16 ∧
    (s.fault ≠ .none → exec .ebeg s = .next s) ∧
    (s.fault = .none → ¬ (s.phase = .ready ∧ s.mode = .none) →
      exec .ebeg s = .next (s.raise .illegalCmd 0x5000#16)) ∧
    (s.fault = .none → s.phase = .ready → s.mode = .none →
      exec .ebeg s = .next { s with out := [], mode := .enc })

/-- R151: ENC b in every case; a code bit is emitted as 0x30 or 0x31. -/
def Obligations.EncAppendsTheCode : Prop :=
  ∀ (s : State) (b : Byte),
    encode (.enc b) = 0x6000#16 ||| b.setWidth 16 ∧
    (s.fault ≠ .none → exec (.enc b) s = .next s) ∧
    (s.fault = .none → s.mode ≠ .enc →
      exec (.enc b) s = .next (s.raise .illegalCmd (encode (.enc b)))) ∧
    (s.fault = .none → s.mode = .enc → b = 0x0A#8 → exec (.enc b) s = .next s) ∧
    (s.fault = .none → s.mode = .enc → b ≠ 0x0A#8 → Table.get s.code b = none →
      exec (.enc b) s = .next (s.raise .noSymbol (encode (.enc b)))) ∧
    (∀ p, s.fault = .none → s.mode = .enc → b ≠ 0x0A#8 → Table.get s.code b = some p →
      s.outLen + p.length > s.outCap →
      exec (.enc b) s = .next (s.raise .resource (encode (.enc b)))) ∧
    (∀ p, s.fault = .none → s.mode = .enc → b ≠ 0x0A#8 → Table.get s.code b = some p →
      s.outLen + p.length ≤ s.outCap →
      exec (.enc b) s =
        .next { s with out := s.out ++ p.map fun d => if d then 0x31#8 else 0x30#8 })

/-- R152: EEND in every case. -/
def Obligations.EendClosesTheEncodeSession : Prop :=
  ∀ s : State, encode .eend = 0x7000#16 ∧
    (s.fault ≠ .none → exec .eend s = .next s) ∧
    (s.fault = .none → s.mode ≠ .enc → exec .eend s = .next (s.raise .illegalCmd 0x7000#16)) ∧
    (s.fault = .none → s.mode = .enc → exec .eend s = .next { s with mode := .none })

/-- R153: the output of an encode session is the concatenation of the codes of the bytes that are not
filtered; a session completes when every such byte has a code and the output fits. -/
def Obligations.EncodeSessionConcatenatesCodes : Prop :=
  ∀ (s : State) (bs : List Byte), s.fault = .none → s.phase = .ready → s.mode = .none →
    ((∀ b ∈ filterBytes bs, Table.get s.code b ≠ none) →
      ((filterBytes bs).flatMap fun b => codeChars ((Table.get s.code b).getD [])).length ≤ s.outCap →
      execAll (encodeSession bs) s = .next { s with
        out := (filterBytes bs).flatMap fun b => codeChars ((Table.get s.code b).getD []) }) ∧
    (∀ t, execAll (encodeSession bs) s = .next t → t.fault = .none →
      t.out = ((filterBytes bs).flatMap fun b => codeChars ((Table.get s.code b).getD [])) ∧
      t.outLen = ((filterBytes bs).map fun b => ((Table.get s.code b).getD []).length).sum ∧
      ∀ x ∈ t.out, x = 0x30#8 ∨ x = 0x31#8)

/-- R154: the encoder's commands neither read nor write the tree, ROOT, ROOT_VALID or CUR. -/
def Obligations.EncoderIgnoresTheTree : Prop :=
  ∀ i : Instr, (i = .ebeg ∨ (∃ b, i = .enc b) ∨ i = .eend) →
    ∀ (s t : State) (node : List Node) (root cur : Idx) (valid : Bool), exec i s = .next t →
      exec i { s with node := node, root := root, rootValid := valid, cur := cur } =
        .next { t with node := node, root := root, rootValid := valid, cur := cur }

/-! ## The decoder -/

/-- R165: DBEG in every case. -/
def Obligations.DbegOpensADecodeSession : Prop :=
  ∀ s : State, encode .dbeg = 0x8000#16 ∧
    (s.fault ≠ .none → exec .dbeg s = .next s) ∧
    (s.fault = .none → ¬ (s.phase = .ready ∧ s.mode = .none) →
      exec .dbeg s = .next (s.raise .illegalCmd 0x8000#16)) ∧
    (s.fault = .none → s.phase = .ready → s.mode = .none →
      exec .dbeg s = .next { s with out := [], cur := s.root, trunc := false, mode := .dec })

/-- R166: DEC c in every case. -/
def Obligations.DecWalksOneEdge : Prop :=
  ∀ (s : State) (c : Byte),
    encode (.dec c) = 0x9000#16 ||| c.setWidth 16 ∧
    (s.fault ≠ .none → exec (.dec c) s = .next s) ∧
    (s.fault = .none → s.mode ≠ .dec →
      exec (.dec c) s = .next (s.raise .illegalCmd (encode (.dec c)))) ∧
    (s.fault = .none → s.mode = .dec →
      ((c ≠ 0x30#8 ∧ c ≠ 0x31#8) ∨ s.rootValid = false ∨ (s.nodeAt s.cur).isLeaf = true) →
      exec (.dec c) s = .next (s.raise .malformed (encode (.dec c)))) ∧
    (∀ n, s.fault = .none → s.mode = .dec → s.rootValid = true → (s.nodeAt s.cur).isLeaf = false →
      ((c = 0x30#8 ∧ n = (s.nodeAt s.cur).left) ∨ (c = 0x31#8 ∧ n = (s.nodeAt s.cur).right)) →
      ((s.nodeAt n).isLeaf = true → s.outLen + 1 > s.outCap →
        exec (.dec c) s = .next (s.raise .resource (encode (.dec c)))) ∧
      ((s.nodeAt n).isLeaf = true → s.outLen + 1 ≤ s.outCap →
        exec (.dec c) s = .next { s with out := s.out ++ [(s.nodeAt n).sym], cur := s.root }) ∧
      ((s.nodeAt n).isLeaf = false → exec (.dec c) s = .next { s with cur := n }))

/-- R167, R168, R170: DEND in every case. -/
def Obligations.DendEndsTheDecodeSession : Prop :=
  ∀ s : State, encode .dend = 0xA000#16 ∧
    (s.fault ≠ .none → exec .dend s = .next s) ∧
    (s.fault = .none → s.mode ≠ .dec → exec .dend s = .next (s.raise .illegalCmd 0xA000#16)) ∧
    (s.fault = .none → s.mode = .dec → s.rootValid = true → (s.nodeAt s.root).isLeaf = true →
      s.outLen + (s.nodeAt s.root).weight.toNat > s.outCap →
      exec .dend s = .next (s.raise .resource 0xA000#16)) ∧
    (s.fault = .none → s.mode = .dec → s.rootValid = true → (s.nodeAt s.root).isLeaf = true →
      s.outLen + (s.nodeAt s.root).weight.toNat ≤ s.outCap →
      exec .dend s = .next { s with
        out := s.out ++ List.replicate (s.nodeAt s.root).weight.toNat (s.nodeAt s.root).sym,
        trunc := decide (s.cur ≠ s.root), mode := .none }) ∧
    (s.fault = .none → s.mode = .dec → s.rootValid = true → (s.nodeAt s.root).isLeaf = false →
      exec .dend s = .next { s with trunc := decide (s.cur ≠ s.root), mode := .none }) ∧
    (s.fault = .none → s.mode = .dec → s.rootValid = false →
      exec .dend s = .next { s with trunc := false, mode := .none })

/-- R171: with no tree an empty decode session completes and any character is MALFORMED. -/
def Obligations.NoTreeDecodesNothing : Prop :=
  ∀ s : State, s.fault = .none → s.phase = .ready → s.mode = .none → s.rootValid = false →
    execAll (decodeSession []) s =
      .next { s with out := [], cur := s.root, trunc := false, mode := .none } ∧
    ∀ c, execAll [.dbeg, .dec c] s =
      .next { s with out := [], cur := s.root, trunc := false, mode := .none, fault := .malformed,
                     faultCmd := encode (.dec c) }

/-- R166, R169: the characters of a root-to-leaf path, handed over from the root, emit the byte of that leaf
and bring the decoder back to the root. -/
def Obligations.DecodingACodeEmitsItsByte : Prop :=
  ∀ (s : State) (p : Code) (b : Byte), s.fault = .none → s.mode = .dec → s.rootValid = true →
    (s.nodeAt s.root).isLeaf = false → s.cur = s.root → s.outLen + 1 ≤ s.outCap →
    leafAt s.node s.root p = some b →
    execAll ((codeChars p).map .dec) s = .next { s with out := s.out ++ [b] }

/-- R174: a stream with a character other than '0' and '1' ends in a fault with an empty output; in
MALFORMED, unless an earlier character already faulted. -/
def Obligations.BadCharacterIsRejected : Prop :=
  ∀ (s : State) (cs ds : List Byte) (c : Byte), s.fault = .none → s.mode = .dec →
    c ≠ 0x30#8 → c ≠ 0x31#8 →
    ∃ u t, execAll (cs.map .dec) s = .next u ∧ execAll ((cs ++ c :: ds).map .dec) s = .next t ∧
      t.outLen = 0 ∧ (u.fault = .none → t.fault = .malformed ∧ t.faultCmd = encode (.dec c)) ∧
      (u.fault ≠ .none → t = u)

/-- R175: the decoder's commands neither read nor write FREQ or CODE. -/
def Obligations.DecoderIgnoresTheTable : Prop :=
  ∀ i : Instr, (i = .dbeg ∨ (∃ c, i = .dec c) ∨ i = .dend) →
    ∀ (s t : State) (freq : Table Weight) (code : Table (Option Code)), exec i s = .next t →
      exec i { s with freq := freq, code := code } = .next { t with freq := freq, code := code }

/-- R172: the round trip, for every byte sequence. -/
def Obligations.RoundTripReturnsTheInput : Prop :=
  ∀ (s : State) (S : List Byte), s.atReset → (filterBytes S).length ≤ 4294967295 →
    ∃ t, execAll (countSession S ++ tableSession) s = .next t ∧ t.fault = .none ∧
      (((filterBytes S).flatMap fun b => codeChars ((Table.get t.code b).getD [])).length ≤ s.outCap →
        (filterBytes S).length ≤ s.outCap →
        ∃ u, execAll (encodeSession S) t = .next u ∧ u.fault = .none ∧
          ∃ v, execAll (decodeSession u.out) u = .next v ∧ v.fault = .none ∧
            v.out = filterBytes S ∧ v.trunc = false)

/-! ## Frames -/

/-- What NOP, CNT, BLD and GEN leave unchanged when they take effect: every register, flag and store slot
but those R66 lists as written. -/
def Obligations.BuildCommandsFrame : Prop :=
  ∀ (i : Instr) (s t : State), s.fault = .none → exec i s = .next t → t.fault = .none →
    (i = .nop → t = s) ∧
    (∀ b, i = .cnt b → t = { s with freq := t.freq } ∧
      ∀ c, c ≠ b → Table.get t.freq c = Table.get s.freq c) ∧
    (i = .bld → t = { s with node := t.node, pq := t.pq, nleaf := t.nleaf, root := t.root,
                             rootValid := t.rootValid, phase := t.phase }) ∧
    (i = .gen → t = { s with code := t.code, phase := t.phase })

/-- What the session commands leave unchanged when they take effect: every register, flag and store slot
but those R66 lists as written, and of OUT every byte already held but where the session starts. -/
def Obligations.SessionCommandsFrame : Prop :=
  ∀ (i : Instr) (s t : State), s.fault = .none → exec i s = .next t → t.fault = .none →
    (i = .ebeg → t = { s with mode := t.mode, out := t.out }) ∧
    (∀ b, i = .enc b → t = { s with out := t.out } ∧
      ∀ k, k < s.outLen → t.out[k]? = s.out[k]?) ∧
    (i = .eend → t = { s with mode := t.mode }) ∧
    (i = .dbeg → t = { s with mode := t.mode, out := t.out, cur := t.cur, trunc := t.trunc }) ∧
    (∀ c, i = .dec c → t = { s with cur := t.cur, out := t.out } ∧
      ∀ k, k < s.outLen → t.out[k]? = s.out[k]?) ∧
    (i = .dend → t = { s with out := t.out, trunc := t.trunc, mode := t.mode } ∧
      ∀ k, k < s.outLen → t.out[k]? = s.out[k]?)

/-! ## Invariants -/

/-- The invariants hold after reset (R40, R42). -/
def Obligations.ResetMeetsTheInvariants : Prop := State.reset.Inv

/-- R42, with R24, R25, R28, R29, R32, R33: every step keeps the registers and stores consistent. -/
def Obligations.StepKeepsTheBookkeeping : Prop :=
  ∀ s t : State, Bookkeeping s → step s = .next t → Bookkeeping t

/-- R38, R27, R125, R132: every step keeps the arena the tree of the counts, its merges in the queue's order. -/
def Obligations.StepKeepsTheTreeShape : Prop :=
  ∀ s t : State, Bookkeeping s → TreeShape s → step s = .next t → TreeShape t

/-- R30, R141, R142, R39: every step keeps the code table empty or exactly the root-to-leaf paths. -/
def Obligations.StepKeepsTheCodesOfTheTree : Prop :=
  ∀ s t : State, s.Inv → step s = .next t → CodesOfTree t

/-- R22, R31, R169: every step keeps the decoder's current node in the tree and off its leaves. -/
def Obligations.StepKeepsTheDecoderPosition : Prop :=
  ∀ s t : State, s.Inv → step s = .next t → DecoderPosition t

/-! ## The host read port -/

/-- R35: the fields of STATUS. -/
def Obligations.StatusIsTheComposite : Prop :=
  ∀ s : State, s.status.extractLsb' 0 2 = s.phase.bits ∧ s.status.extractLsb' 2 2 = s.mode.bits ∧
    s.status.getLsbD 4 = s.rootValid ∧ s.status.getLsbD 5 = s.trunc ∧
    (s.status.getLsbD 6 = true ↔ s.fault ≠ .none) ∧ s.status.extractLsb' 7 25 = 0#25

/-- R36: the nine registers of the read map. -/
def Obligations.ReadPortGivesTheRegisters : Prop :=
  ∀ s : State, s.hostRead 0#32 = s.status ∧ s.hostRead 1#32 = s.fault.bits.setWidth 32 ∧
    s.hostRead 2#32 = s.faultCmd.setWidth 32 ∧ s.hostRead 3#32 = s.nleaf.setWidth 32 ∧
    s.hostRead 4#32 = (BitVec.ofNat 9 s.nnode).setWidth 32 ∧
    s.hostRead 5#32 = s.root.setWidth 32 ∧
    s.hostRead 6#32 = (BitVec.ofNat 9 s.qlen).setWidth 32 ∧
    s.hostRead 7#32 = s.cur.setWidth 32 ∧ s.hostRead 8#32 = BitVec.ofNat 32 s.outLen

/-- R62: the windows onto the stores, wherever the spec gives the slot a content, and 0 elsewhere. Of a slot
past NNODE, QLEN or OUT_LEN nothing is said. -/
def Obligations.ReadPortGivesTheStores : Prop :=
  ∀ s : State,
    (∀ b : Byte, s.hostRead (BitVec.ofNat 32 (0x100 + b.toNat)) = Table.get s.freq b) ∧
    (∀ k x, k < 256 → s.pq[k]? = some x →
      s.hostRead (BitVec.ofNat 32 (0x200 + k)) = x.setWidth 32) ∧
    (∀ i x, i < 511 → s.node[i]? = some x →
      (s.hostRead (BitVec.ofNat 32 (0x400 + 2 * i))).extractLsb' 0 9 = x.left ∧
      (s.hostRead (BitVec.ofNat 32 (0x400 + 2 * i))).extractLsb' 9 9 = x.right ∧
      (s.hostRead (BitVec.ofNat 32 (0x400 + 2 * i))).extractLsb' 18 8 = x.sym ∧
      (s.hostRead (BitVec.ofNat 32 (0x400 + 2 * i))).getLsbD 26 = x.isLeaf ∧
      (s.hostRead (BitVec.ofNat 32 (0x400 + 2 * i))).extractLsb' 27 5 = 0#5 ∧
      s.hostRead (BitVec.ofNat 32 (0x400 + 2 * i + 1)) = x.weight) ∧
    (∀ b : Byte, Table.get s.code b = none →
      s.hostRead (BitVec.ofNat 32 (0x800 + b.toNat)) = 0#32) ∧
    (∀ (b : Byte) p, Table.get s.code b = some p → p.length ≤ 255 →
      (s.hostRead (BitVec.ofNat 32 (0x800 + b.toNat))).toNat = 256 + p.length) ∧
    (∀ (b : Byte) j t, j < 8 → t < 32 →
      (s.hostRead (BitVec.ofNat 32 (0x1000 + 8 * b.toNat + j))).getLsbD t =
        (decide (32 * j + t < 255) && ((Table.get s.code b).getD []).getD (32 * j + t) false)) ∧
    (∀ i x, i < s.outCap → 0x80000000 + i < 2 ^ 32 → s.out[i]? = some x →
      s.hostRead (BitVec.ofNat 32 (0x80000000 + i)) = x.setWidth 32) ∧
    (∀ a : Addr,
      ((9 ≤ a.toNat ∧ a.toNat < 0x100) ∨ (0x300 ≤ a.toNat ∧ a.toNat < 0x400) ∨
        (0x7FE ≤ a.toNat ∧ a.toNat < 0x800) ∨ (0x900 ≤ a.toNat ∧ a.toNat < 0x1000) ∨
        (0x1800 ≤ a.toNat ∧ a.toNat < 0x80000000) ∨ 0x80000000 + s.outCap ≤ a.toNat) →
      s.hostRead a = 0#32)
end

