-- ==== Sys2Proof/Laws/Encoding.lean ====
section
/-! SUPPORT. The fields of a word and of an encoded command as numbers (30_encoding.md R80). -/

namespace Sys2Proof

theorem encode_toNat (i : Instr) : (encode i).toNat = 4096 * i.opcode.toNat + i.operand.toNat := by
  have h1 : (0#4 ++ i.operand : BitVec (4 + 8)).toNat = i.operand.toNat := by
    rw [BitVec.toNat_append]; simp
  have h2 : (encode i).toNat = (i.opcode ++ (0#4 ++ i.operand : BitVec (4 + 8)) : BitVec (4 + (4 + 8))).toNat := rfl
  rw [h2, BitVec.toNat_append, h1, ← Nat.shiftLeft_add_eq_or_of_lt (by have := i.operand.isLt; omega), Nat.shiftLeft_eq]
  omega

theorem opField_toNat (w : Word) : (opField w).toNat = w.toNat / 4096 := by
  have := w.isLt
  simp [opField, Nat.shiftRight_eq_div_pow]; omega

theorem rsvField_toNat (w : Word) : (rsvField w).toNat = w.toNat / 256 % 16 := by
  simp [rsvField, Nat.shiftRight_eq_div_pow]

theorem opdField_toNat (w : Word) : (opdField w).toNat = w.toNat % 256 := by
  simp [opdField]

theorem opField_encode (i : Instr) : opField (encode i) = i.opcode := by
  apply BitVec.eq_of_toNat_eq
  have := i.operand.isLt
  rw [opField_toNat, encode_toNat]; omega

theorem rsvField_encode (i : Instr) : rsvField (encode i) = 0#4 := by
  apply BitVec.eq_of_toNat_eq
  have := i.operand.isLt
  rw [rsvField_toNat, encode_toNat]; simp; omega

theorem opdField_encode (i : Instr) : opdField (encode i) = i.operand := by
  apply BitVec.eq_of_toNat_eq
  have := i.operand.isLt
  rw [opdField_toNat, encode_toNat]; omega

/-- A word whose reserved bits are 0 is the encoding of the command with its opcode and operand. -/
theorem encode_eq_of_fields {i : Instr} {w : Word} (ho : opField w = i.opcode) (hr : rsvField w = 0#4)
    (hd : opdField w = i.operand) : encode i = w := by
  apply BitVec.eq_of_toNat_eq
  have h1 := opField_toNat w
  have h2 := rsvField_toNat w
  have h3 := opdField_toNat w
  rw [ho] at h1; rw [hr] at h2; rw [hd] at h3
  rw [encode_toNat]; simp at h2; omega

end Sys2Proof
end

