-- ==== Sys2Proof/Laws/State.lean ====
section
/-! SUPPORT. One lemma a field for each update of the state, true by rfl, so that no proof unfolds a
record update. -/

namespace Sys2Proof.Machine

/-! `State.raise` -/

@[simp] theorem State.raise_phase (s : State) (f : FaultCode) (w : Word) : (s.raise f w).phase = s.phase := rfl
@[simp] theorem State.raise_mode (s : State) (f : FaultCode) (w : Word) : (s.raise f w).mode = Mode.none := rfl
@[simp] theorem State.raise_freq (s : State) (f : FaultCode) (w : Word) : (s.raise f w).freq = s.freq := rfl
@[simp] theorem State.raise_node (s : State) (f : FaultCode) (w : Word) : (s.raise f w).node = s.node := rfl
@[simp] theorem State.raise_nleaf (s : State) (f : FaultCode) (w : Word) : (s.raise f w).nleaf = s.nleaf := rfl
@[simp] theorem State.raise_pq (s : State) (f : FaultCode) (w : Word) : (s.raise f w).pq = s.pq := rfl
@[simp] theorem State.raise_root (s : State) (f : FaultCode) (w : Word) : (s.raise f w).root = s.root := rfl
@[simp] theorem State.raise_rootValid (s : State) (f : FaultCode) (w : Word) : (s.raise f w).rootValid = s.rootValid := rfl
@[simp] theorem State.raise_code (s : State) (f : FaultCode) (w : Word) : (s.raise f w).code = s.code := rfl
@[simp] theorem State.raise_cur (s : State) (f : FaultCode) (w : Word) : (s.raise f w).cur = s.cur := rfl
@[simp] theorem State.raise_out (s : State) (f : FaultCode) (w : Word) : (s.raise f w).out = [] := rfl
@[simp] theorem State.raise_fault (s : State) (f : FaultCode) (w : Word) : (s.raise f w).fault = f := rfl
@[simp] theorem State.raise_faultCmd (s : State) (f : FaultCode) (w : Word) : (s.raise f w).faultCmd = w := rfl
@[simp] theorem State.raise_trunc (s : State) (f : FaultCode) (w : Word) : (s.raise f w).trunc = s.trunc := rfl
@[simp] theorem State.raise_outCap (s : State) (f : FaultCode) (w : Word) : (s.raise f w).outCap = s.outCap := rfl
@[simp] theorem State.raise_host (s : State) (f : FaultCode) (w : Word) : (s.raise f w).host = s.host := rfl
@[simp] theorem State.raise_stamp (s : State) (f : FaultCode) (w : Word) : (s.raise f w).stamp = s.stamp := rfl

/-! `State.emitAll` -/

@[simp] theorem State.emitAll_phase (s : State) (bs : List Byte) : (s.emitAll bs).phase = s.phase := rfl
@[simp] theorem State.emitAll_mode (s : State) (bs : List Byte) : (s.emitAll bs).mode = s.mode := rfl
@[simp] theorem State.emitAll_freq (s : State) (bs : List Byte) : (s.emitAll bs).freq = s.freq := rfl
@[simp] theorem State.emitAll_node (s : State) (bs : List Byte) : (s.emitAll bs).node = s.node := rfl
@[simp] theorem State.emitAll_nleaf (s : State) (bs : List Byte) : (s.emitAll bs).nleaf = s.nleaf := rfl
@[simp] theorem State.emitAll_pq (s : State) (bs : List Byte) : (s.emitAll bs).pq = s.pq := rfl
@[simp] theorem State.emitAll_root (s : State) (bs : List Byte) : (s.emitAll bs).root = s.root := rfl
@[simp] theorem State.emitAll_rootValid (s : State) (bs : List Byte) : (s.emitAll bs).rootValid = s.rootValid := rfl
@[simp] theorem State.emitAll_code (s : State) (bs : List Byte) : (s.emitAll bs).code = s.code := rfl
@[simp] theorem State.emitAll_cur (s : State) (bs : List Byte) : (s.emitAll bs).cur = s.cur := rfl
@[simp] theorem State.emitAll_out (s : State) (bs : List Byte) : (s.emitAll bs).out = s.out ++ bs := rfl
@[simp] theorem State.emitAll_fault (s : State) (bs : List Byte) : (s.emitAll bs).fault = s.fault := rfl
@[simp] theorem State.emitAll_faultCmd (s : State) (bs : List Byte) : (s.emitAll bs).faultCmd = s.faultCmd := rfl
@[simp] theorem State.emitAll_trunc (s : State) (bs : List Byte) : (s.emitAll bs).trunc = s.trunc := rfl
@[simp] theorem State.emitAll_outCap (s : State) (bs : List Byte) : (s.emitAll bs).outCap = s.outCap := rfl
@[simp] theorem State.emitAll_host (s : State) (bs : List Byte) : (s.emitAll bs).host = s.host := rfl
@[simp] theorem State.emitAll_stamp (s : State) (bs : List Byte) : (s.emitAll bs).stamp = s.stamp := rfl

/-! `State.taken` -/

@[simp] theorem State.taken_phase (s : State) (rest : List HostInput) : (s.taken rest).phase = s.phase := rfl
@[simp] theorem State.taken_mode (s : State) (rest : List HostInput) : (s.taken rest).mode = s.mode := rfl
@[simp] theorem State.taken_freq (s : State) (rest : List HostInput) : (s.taken rest).freq = s.freq := rfl
@[simp] theorem State.taken_node (s : State) (rest : List HostInput) : (s.taken rest).node = s.node := rfl
@[simp] theorem State.taken_nleaf (s : State) (rest : List HostInput) : (s.taken rest).nleaf = s.nleaf := rfl
@[simp] theorem State.taken_pq (s : State) (rest : List HostInput) : (s.taken rest).pq = s.pq := rfl
@[simp] theorem State.taken_root (s : State) (rest : List HostInput) : (s.taken rest).root = s.root := rfl
@[simp] theorem State.taken_rootValid (s : State) (rest : List HostInput) : (s.taken rest).rootValid = s.rootValid := rfl
@[simp] theorem State.taken_code (s : State) (rest : List HostInput) : (s.taken rest).code = s.code := rfl
@[simp] theorem State.taken_cur (s : State) (rest : List HostInput) : (s.taken rest).cur = s.cur := rfl
@[simp] theorem State.taken_out (s : State) (rest : List HostInput) : (s.taken rest).out = s.out := rfl
@[simp] theorem State.taken_fault (s : State) (rest : List HostInput) : (s.taken rest).fault = s.fault := rfl
@[simp] theorem State.taken_faultCmd (s : State) (rest : List HostInput) : (s.taken rest).faultCmd = s.faultCmd := rfl
@[simp] theorem State.taken_trunc (s : State) (rest : List HostInput) : (s.taken rest).trunc = s.trunc := rfl
@[simp] theorem State.taken_outCap (s : State) (rest : List HostInput) : (s.taken rest).outCap = s.outCap := rfl
@[simp] theorem State.taken_host (s : State) (rest : List HostInput) : (s.taken rest).host = rest := rfl
@[simp] theorem State.taken_stamp (s : State) (rest : List HostInput) : (s.taken rest).stamp = s.stamp + 1 := rfl

/-! `State.withOutCap` -/

@[simp] theorem State.withOutCap_phase (s : State) (n : Nat) : (s.withOutCap n).phase = s.phase := rfl
@[simp] theorem State.withOutCap_mode (s : State) (n : Nat) : (s.withOutCap n).mode = s.mode := rfl
@[simp] theorem State.withOutCap_freq (s : State) (n : Nat) : (s.withOutCap n).freq = s.freq := rfl
@[simp] theorem State.withOutCap_node (s : State) (n : Nat) : (s.withOutCap n).node = s.node := rfl
@[simp] theorem State.withOutCap_nleaf (s : State) (n : Nat) : (s.withOutCap n).nleaf = s.nleaf := rfl
@[simp] theorem State.withOutCap_pq (s : State) (n : Nat) : (s.withOutCap n).pq = s.pq := rfl
@[simp] theorem State.withOutCap_root (s : State) (n : Nat) : (s.withOutCap n).root = s.root := rfl
@[simp] theorem State.withOutCap_rootValid (s : State) (n : Nat) : (s.withOutCap n).rootValid = s.rootValid := rfl
@[simp] theorem State.withOutCap_code (s : State) (n : Nat) : (s.withOutCap n).code = s.code := rfl
@[simp] theorem State.withOutCap_cur (s : State) (n : Nat) : (s.withOutCap n).cur = s.cur := rfl
@[simp] theorem State.withOutCap_out (s : State) (n : Nat) : (s.withOutCap n).out = s.out := rfl
@[simp] theorem State.withOutCap_fault (s : State) (n : Nat) : (s.withOutCap n).fault = s.fault := rfl
@[simp] theorem State.withOutCap_faultCmd (s : State) (n : Nat) : (s.withOutCap n).faultCmd = s.faultCmd := rfl
@[simp] theorem State.withOutCap_trunc (s : State) (n : Nat) : (s.withOutCap n).trunc = s.trunc := rfl
@[simp] theorem State.withOutCap_outCap (s : State) (n : Nat) : (s.withOutCap n).outCap = n := rfl
@[simp] theorem State.withOutCap_host (s : State) (n : Nat) : (s.withOutCap n).host = s.host := rfl
@[simp] theorem State.withOutCap_stamp (s : State) (n : Nat) : (s.withOutCap n).stamp = s.stamp := rfl

/-! `State.withCommands` -/

@[simp] theorem State.withCommands_phase (s : State) (ws : List Word) : (s.withCommands ws).phase = s.phase := rfl
@[simp] theorem State.withCommands_mode (s : State) (ws : List Word) : (s.withCommands ws).mode = s.mode := rfl
@[simp] theorem State.withCommands_freq (s : State) (ws : List Word) : (s.withCommands ws).freq = s.freq := rfl
@[simp] theorem State.withCommands_node (s : State) (ws : List Word) : (s.withCommands ws).node = s.node := rfl
@[simp] theorem State.withCommands_nleaf (s : State) (ws : List Word) : (s.withCommands ws).nleaf = s.nleaf := rfl
@[simp] theorem State.withCommands_pq (s : State) (ws : List Word) : (s.withCommands ws).pq = s.pq := rfl
@[simp] theorem State.withCommands_root (s : State) (ws : List Word) : (s.withCommands ws).root = s.root := rfl
@[simp] theorem State.withCommands_rootValid (s : State) (ws : List Word) : (s.withCommands ws).rootValid = s.rootValid := rfl
@[simp] theorem State.withCommands_code (s : State) (ws : List Word) : (s.withCommands ws).code = s.code := rfl
@[simp] theorem State.withCommands_cur (s : State) (ws : List Word) : (s.withCommands ws).cur = s.cur := rfl
@[simp] theorem State.withCommands_out (s : State) (ws : List Word) : (s.withCommands ws).out = s.out := rfl
@[simp] theorem State.withCommands_fault (s : State) (ws : List Word) : (s.withCommands ws).fault = s.fault := rfl
@[simp] theorem State.withCommands_faultCmd (s : State) (ws : List Word) : (s.withCommands ws).faultCmd = s.faultCmd := rfl
@[simp] theorem State.withCommands_trunc (s : State) (ws : List Word) : (s.withCommands ws).trunc = s.trunc := rfl
@[simp] theorem State.withCommands_outCap (s : State) (ws : List Word) : (s.withCommands ws).outCap = s.outCap := rfl
@[simp] theorem State.withCommands_host (s : State) (ws : List Word) : (s.withCommands ws).host = ws.map HostInput.cmd := rfl
@[simp] theorem State.withCommands_stamp (s : State) (ws : List Word) : (s.withCommands ws).stamp = s.stamp := rfl

/-! `State.withFetchWord` -/

@[simp] theorem State.withFetchWord_phase (s : State) (nbits w : Nat) : (s.withFetchWord nbits w).phase = s.phase := rfl
@[simp] theorem State.withFetchWord_mode (s : State) (nbits w : Nat) : (s.withFetchWord nbits w).mode = s.mode := rfl
@[simp] theorem State.withFetchWord_freq (s : State) (nbits w : Nat) : (s.withFetchWord nbits w).freq = s.freq := rfl
@[simp] theorem State.withFetchWord_node (s : State) (nbits w : Nat) : (s.withFetchWord nbits w).node = s.node := rfl
@[simp] theorem State.withFetchWord_nleaf (s : State) (nbits w : Nat) : (s.withFetchWord nbits w).nleaf = s.nleaf := rfl
@[simp] theorem State.withFetchWord_pq (s : State) (nbits w : Nat) : (s.withFetchWord nbits w).pq = s.pq := rfl
@[simp] theorem State.withFetchWord_root (s : State) (nbits w : Nat) : (s.withFetchWord nbits w).root = s.root := rfl
@[simp] theorem State.withFetchWord_rootValid (s : State) (nbits w : Nat) : (s.withFetchWord nbits w).rootValid = s.rootValid := rfl
@[simp] theorem State.withFetchWord_code (s : State) (nbits w : Nat) : (s.withFetchWord nbits w).code = s.code := rfl
@[simp] theorem State.withFetchWord_cur (s : State) (nbits w : Nat) : (s.withFetchWord nbits w).cur = s.cur := rfl
@[simp] theorem State.withFetchWord_out (s : State) (nbits w : Nat) : (s.withFetchWord nbits w).out = s.out := rfl
@[simp] theorem State.withFetchWord_fault (s : State) (nbits w : Nat) : (s.withFetchWord nbits w).fault = s.fault := rfl
@[simp] theorem State.withFetchWord_faultCmd (s : State) (nbits w : Nat) : (s.withFetchWord nbits w).faultCmd = s.faultCmd := rfl
@[simp] theorem State.withFetchWord_trunc (s : State) (nbits w : Nat) : (s.withFetchWord nbits w).trunc = s.trunc := rfl
@[simp] theorem State.withFetchWord_outCap (s : State) (nbits w : Nat) : (s.withFetchWord nbits w).outCap = s.outCap := rfl
@[simp] theorem State.withFetchWord_host (s : State) (nbits w : Nat) : (s.withFetchWord nbits w).host = HostInput.cmd (BitVec.ofNat 16 (w % 2 ^ nbits)) :: s.host := rfl
@[simp] theorem State.withFetchWord_stamp (s : State) (nbits w : Nat) : (s.withFetchWord nbits w).stamp = s.stamp := rfl

/-! `State.cleared` -/

@[simp] theorem State.cleared_phase (s : State) : s.cleared.phase = Phase.idle := rfl
@[simp] theorem State.cleared_mode (s : State) : s.cleared.mode = Mode.none := rfl
@[simp] theorem State.cleared_freq (s : State) : s.cleared.freq = Vector.replicate 256 0#32 := rfl
@[simp] theorem State.cleared_node (s : State) : s.cleared.node = [] := rfl
@[simp] theorem State.cleared_nleaf (s : State) : s.cleared.nleaf = 0#9 := rfl
@[simp] theorem State.cleared_pq (s : State) : s.cleared.pq = [] := rfl
@[simp] theorem State.cleared_root (s : State) : s.cleared.root = Config.nil := rfl
@[simp] theorem State.cleared_rootValid (s : State) : s.cleared.rootValid = false := rfl
@[simp] theorem State.cleared_code (s : State) : s.cleared.code = Vector.replicate 256 Option.none := rfl
@[simp] theorem State.cleared_cur (s : State) : s.cleared.cur = Config.nil := rfl
@[simp] theorem State.cleared_out (s : State) : s.cleared.out = [] := rfl
@[simp] theorem State.cleared_fault (s : State) : s.cleared.fault = FaultCode.none := rfl
@[simp] theorem State.cleared_faultCmd (s : State) : s.cleared.faultCmd = 0#16 := rfl
@[simp] theorem State.cleared_trunc (s : State) : s.cleared.trunc = false := rfl
@[simp] theorem State.cleared_outCap (s : State) : s.cleared.outCap = s.outCap := rfl
@[simp] theorem State.cleared_host (s : State) : s.cleared.host = s.host := rfl
@[simp] theorem State.cleared_stamp (s : State) : s.cleared.stamp = s.stamp := rfl

/-! `State.reset` -/

@[simp] theorem State.reset_phase : State.reset.phase = Phase.idle := rfl
@[simp] theorem State.reset_mode : State.reset.mode = Mode.none := rfl
@[simp] theorem State.reset_freq : State.reset.freq = Vector.replicate 256 0#32 := rfl
@[simp] theorem State.reset_node : State.reset.node = [] := rfl
@[simp] theorem State.reset_nleaf : State.reset.nleaf = 0#9 := rfl
@[simp] theorem State.reset_pq : State.reset.pq = [] := rfl
@[simp] theorem State.reset_root : State.reset.root = Config.nil := rfl
@[simp] theorem State.reset_rootValid : State.reset.rootValid = false := rfl
@[simp] theorem State.reset_code : State.reset.code = Vector.replicate 256 Option.none := rfl
@[simp] theorem State.reset_cur : State.reset.cur = Config.nil := rfl
@[simp] theorem State.reset_out : State.reset.out = [] := rfl
@[simp] theorem State.reset_fault : State.reset.fault = FaultCode.none := rfl
@[simp] theorem State.reset_faultCmd : State.reset.faultCmd = 0#16 := rfl
@[simp] theorem State.reset_trunc : State.reset.trunc = false := rfl
@[simp] theorem State.reset_outCap : State.reset.outCap = Config.outCap := rfl
@[simp] theorem State.reset_host : State.reset.host = [] := rfl
@[simp] theorem State.reset_stamp : State.reset.stamp = 0 := rfl

end Sys2Proof.Machine
end

