-- ==== Sys2Proof/Laws/Ops.lean ====
section
/-! SUPPORT. What each shared operation can do, one lemma an operation: the stores indexed by a byte,
the arena, the dispatch, the capacity test, the filter and the characters. -/

namespace Sys2Proof.Machine

/-! The stores indexed by a byte value -/

@[simp] theorem Table.get_put_same {α : Type} (t : Table α) (b : Byte) (x : α) :
    Table.get (Table.put t b x) b = x := by
  simp [Table.get, Table.put]

theorem Table.get_put {α : Type} (t : Table α) (b c : Byte) (x : α) :
    Table.get (Table.put t b x) c = if c = b then x else Table.get t c := by
  by_cases h : c = b
  · subst h
    simp
  · have hn : b.toNat ≠ c.toNat := fun e => h (BitVec.eq_of_toNat_eq e.symm)
    simp [Table.get, Table.put, h, hn]

@[simp] theorem Table.get_put_other {α : Type} (t : Table α) {b c : Byte} (x : α) (h : c ≠ b) :
    Table.get (Table.put t b x) c = Table.get t c := by
  rw [Table.get_put, if_neg h]

@[simp] theorem Table.get_replicate {α : Type} (x : α) (b : Byte) :
    Table.get (Vector.replicate 256 x) b = x := by
  simp [Table.get]

theorem Table.ext {α : Type} {t u : Table α} (h : ∀ b, Table.get t b = Table.get u b) : t = u := by
  apply Vector.ext
  intro i hi
  have := h (BitVec.ofNat 8 i)
  simpa [Table.get, Nat.mod_eq_of_lt hi] using this

/-! The arena -/

theorem nodeRead_of_getElem? {node : List Node} {i : Idx} {x : Node} (h : node[i.toNat]? = some x) :
    nodeRead node i = x := by
  simp [nodeRead, h]

theorem nodeRead_append {node : List Node} {i : Idx} (x : Node) (h : i.toNat < node.length) :
    nodeRead (node ++ [x]) i = nodeRead node i := by
  simp [nodeRead, List.getElem?_append_left h]

theorem getElem?_of_lt {node : List Node} {i : Idx} (h : i.toNat < node.length) :
    node[i.toNat]? = some (nodeRead node i) := by
  simp [nodeRead, List.getElem?_eq_getElem h]

/-! The dispatch -/

theorem faulted_iff (s : State) : s.faulted = true ↔ s.fault ≠ .none := by
  simp [State.faulted]

theorem dispatch_faulted {i : Instr} {body : State → Result} {s : State} (h : s.fault ≠ .none) :
    dispatch i body s = .next s := by
  simp [dispatch, State.faulted, h]

theorem dispatch_admitted {i : Instr} {body : State → Result} {s : State} (h : s.fault = .none)
    (ha : admitted i s = true) : dispatch i body s = body s := by
  simp [dispatch, State.faulted, h, ha]

theorem dispatch_illegal {i : Instr} {body : State → Result} {s : State} (h : s.fault = .none)
    (ha : admitted i s = false) : dispatch i body s = .next (s.raise .illegalCmd (encode i)) := by
  simp [dispatch, State.faulted, h, ha]

/-- Everything the dispatch can do. -/
theorem dispatch_cases {i : Instr} {body : State → Result} {s : State} {r : Result}
    (h : dispatch i body s = r) :
    (s.fault ≠ .none ∧ r = .next s) ∨
    (s.fault = .none ∧ admitted i s = false ∧ r = .next (s.raise .illegalCmd (encode i))) ∨
    (s.fault = .none ∧ admitted i s = true ∧ r = body s) := by
  by_cases hf : s.fault = .none
  · cases ha : admitted i s
    · exact .inr (.inl ⟨hf, rfl, by rw [← h, dispatch_illegal hf ha]⟩)
    · exact .inr (.inr ⟨hf, rfl, by rw [← h, dispatch_admitted hf ha]⟩)
  · exact .inl ⟨hf, by rw [← h, dispatch_faulted hf]⟩

/-! The capacity test, the filter, the characters -/

theorem fits_iff (s : State) (n : Nat) : s.fits n = true ↔ s.outLen + n ≤ s.outCap := by
  simp [State.fits]

@[simp] theorem isFiltered_iff (b : Byte) : isFiltered b = true ↔ b = Config.newline := by
  simp [isFiltered]

@[simp] theorem charBit_bitChar (d : Bool) : charBit (bitChar d) = some d := by
  cases d <;> decide

theorem charBit_eq_some {c : Byte} {d : Bool} (h : charBit c = some d) : c = bitChar d := by
  unfold charBit at h
  split at h
  · next hc => cases h; exact hc
  · split at h
    · next hc => cases h; exact hc
    · cases h

theorem charBit_eq_none (c : Byte) :
    charBit c = none ↔ c ≠ Config.char0 ∧ c ≠ Config.char1 := by
  unfold charBit
  split
  · next hc => simp [hc]
  · next hc => split <;> simp_all

theorem mem_allBytes (b : Byte) : b ∈ allBytes := by
  simp only [allBytes, List.mem_map, List.mem_range, Config.nsym]
  exact ⟨b.toNat, b.isLt, by simp⟩

end Sys2Proof.Machine
end

