-- ==== Sys2Proof/Laws/Queue.lean ====
section
/-! SUPPORT. The ordered insert and the two stores of BLD. -/

namespace Sys2Proof.Machine

theorem pqInsert_length (wt : Idx → Weight) (n : Idx) (q : List Idx) :
    (pqInsert wt n q).length = q.length + 1 := by
  induction q with
  | nil => rfl
  | cons m rest ih =>
    simp only [pqInsert]
    split <;> simp [ih]

theorem pqInsert_perm (wt : Idx → Weight) (n : Idx) (q : List Idx) :
    (pqInsert wt n q).Perm (n :: q) := by
  induction q with
  | nil => exact List.Perm.refl _
  | cons m rest ih =>
    simp only [pqInsert]
    split
    · exact List.Perm.refl _
    · exact (ih.cons m).trans (List.Perm.swap n m rest)

theorem mem_pqInsert {wt : Idx → Weight} {n i : Idx} {q : List Idx} :
    i ∈ pqInsert wt n q ↔ i = n ∨ i ∈ q := by
  rw [(pqInsert_perm wt n q).mem_iff, List.mem_cons]

@[simp] theorem Builder.add_node (b : Builder) (x : Node) : (b.add x).node = b.node ++ [x] := rfl

theorem Builder.add_pq_length (b : Builder) (x : Node) : (b.add x).pq.length = b.pq.length + 1 := by
  simp [Builder.add, pqInsert_length]

theorem Builder.mem_add_pq {b : Builder} {x : Node} {i : Idx} :
    i ∈ (b.add x).pq ↔ i = BitVec.ofNat 9 b.node.length ∨ i ∈ b.pq := by
  simp [Builder.add, mem_pqInsert]

end Sys2Proof.Machine
end

