-- ==== Sys2Proof/Laws/Exec.lean ====
section
/-! SUPPORT. What one command can do, said once: `Effect i s t` lists the effects of the commands with the
conditions under which each takes place, and `exec_next` says that an answered command is ignored,
clears, raises a fault, or has one of them. -/

namespace Sys2Proof.Machine

/-! Each command but CLR is the dispatch of R100 around its body. -/

theorem exec_nop (s : State) : exec .nop s = dispatch .nop (fun s => .next s) s := rfl

theorem exec_cnt (s : State) (b : Byte) : exec (.cnt b) s = dispatch (.cnt b) (countByte b) s := rfl

theorem exec_bld (s : State) : exec .bld s = dispatch .bld buildBody s := rfl

theorem exec_gen (s : State) : exec .gen s = dispatch .gen generateBody s := rfl

theorem exec_ebeg (s : State) :
    exec .ebeg s = dispatch .ebeg (fun s => .next { s with out := [], mode := .enc }) s := rfl

theorem exec_enc (s : State) (b : Byte) : exec (.enc b) s = dispatch (.enc b) (encodeByte b) s := rfl

theorem exec_eend (s : State) :
    exec .eend s = dispatch .eend (fun s => .next { s with mode := .none }) s := rfl

theorem exec_dbeg (s : State) :
    exec .dbeg s =
      dispatch .dbeg (fun s => .next { s with out := [], cur := s.root, trunc := false, mode := .dec }) s :=
  rfl

theorem exec_dec (s : State) (c : Byte) : exec (.dec c) s = dispatch (.dec c) (decodeChar c) s := rfl

theorem exec_dend (s : State) : exec .dend s = dispatch .dend endDecode s := rfl

/-- The effect a command has when it is not CLR, is admitted, and raises no fault. -/
inductive Effect : Instr → State → State → Prop where
  | nop {s} : Effect .nop s s
  | cntFiltered {s b} (hp : s.phase = .idle) (hb : b = Config.newline) : Effect (.cnt b) s s
  | cnt {s b} (hp : s.phase = .idle) (hb : b ≠ Config.newline)
      (hw : (Table.get s.freq b).toNat ≠ Config.wmax) :
      Effect (.cnt b) s { s with freq := Table.put s.freq b (Table.get s.freq b + 1#32) }
  | bld {s} (hp : s.phase = .idle) (ht : totalCount s.freq ≤ Config.wmax) :
      Effect .bld s (s.withTree (presentBytes s.freq).length (buildTree s.freq))
  | gen {s t} (hp : s.phase = .built) (hg : generate s = some t) :
      Effect .gen s { s with code := t, phase := .ready }
  | ebeg {s} (hp : s.phase = .ready) (hm : s.mode = .none) :
      Effect .ebeg s { s with out := [], mode := .enc }
  | encFiltered {s b} (hm : s.mode = .enc) (hb : b = Config.newline) : Effect (.enc b) s s
  | enc {s b p} (hm : s.mode = .enc) (hb : b ≠ Config.newline) (hc : Table.get s.code b = some p)
      (hfit : s.outLen + p.length ≤ s.outCap) : Effect (.enc b) s (s.emitAll (codeChars p))
  | eend {s} (hm : s.mode = .enc) : Effect .eend s { s with mode := .none }
  | dbeg {s} (hp : s.phase = .ready) (hm : s.mode = .none) :
      Effect .dbeg s { s with out := [], cur := s.root, trunc := false, mode := .dec }
  | decEmit {s d} (hm : s.mode = .dec) (hv : s.rootValid = true)
      (hi : (s.nodeAt s.cur).isLeaf = false)
      (hl : (s.nodeAt ((s.nodeAt s.cur).child d)).isLeaf = true) (hfit : s.outLen + 1 ≤ s.outCap) :
      Effect (.dec (bitChar d)) s
        { s.emitAll [(s.nodeAt ((s.nodeAt s.cur).child d)).sym] with cur := s.root }
  | decMove {s d} (hm : s.mode = .dec) (hv : s.rootValid = true)
      (hi : (s.nodeAt s.cur).isLeaf = false)
      (hl : (s.nodeAt ((s.nodeAt s.cur).child d)).isLeaf = false) :
      Effect (.dec (bitChar d)) s { s with cur := (s.nodeAt s.cur).child d }
  | dend {s} (hm : s.mode = .dec) (hfit : endFits s = true) :
      Effect .dend s { s.emitAll (endBytes s) with trunc := truncAtEnd s, mode := .none }

/-- A command whose body either raises a fault with its own word or has an effect of `Effect`. -/
def BodyOf (i : Instr) (body : State → Result) : Prop :=
  ∀ s t, admitted i s = true → body s = .next t →
    (∃ f, f ≠ .none ∧ t = s.raise f (encode i)) ∨ Effect i s t

theorem dispatch_next {i : Instr} {body : State → Result} (hb : BodyOf i body) {s t : State}
    (h : dispatch i body s = .next t) :
    (s.fault ≠ .none ∧ t = s) ∨ (s.fault = .none ∧ ∃ f, f ≠ .none ∧ t = s.raise f (encode i)) ∨
      (s.fault = .none ∧ Effect i s t) := by
  obtain ⟨hf, h⟩ | ⟨hf, _, h⟩ | ⟨hf, ha, h⟩ := dispatch_cases h
  · cases h
    exact .inl ⟨hf, rfl⟩
  · cases h
    exact .inr (.inl ⟨hf, _, by decide, rfl⟩)
  · obtain h | h := hb s t ha h.symm
    · exact .inr (.inl ⟨hf, h⟩)
    · exact .inr (.inr ⟨hf, h⟩)

theorem countByte_body (b : Byte) : BodyOf (.cnt b) (countByte b) := by
  intro s t ha h
  have hp : s.phase = .idle := by simpa [admitted] using ha
  unfold countByte at h
  split at h
  · next hb => cases h; exact .inr (.cntFiltered hp ((isFiltered_iff b).1 hb))
  · next hb =>
    split at h
    · cases h; exact .inl ⟨_, by decide, rfl⟩
    · next hw => cases h; exact .inr (.cnt hp (fun e => hb ((isFiltered_iff b).2 e)) hw)

theorem buildBody_body : BodyOf .bld buildBody := by
  intro s t ha h
  have hp : s.phase = .idle := by simpa [admitted] using ha
  unfold buildBody at h
  split at h
  · cases h; exact .inl ⟨_, by decide, rfl⟩
  · next ht => cases h; exact .inr (.bld hp (Nat.le_of_not_lt ht))

theorem generateBody_body : BodyOf .gen generateBody := by
  intro s t ha h
  have hp : s.phase = .built := by simpa [admitted] using ha
  unfold generateBody at h
  split at h
  · next hg => cases h; exact .inr (.gen hp hg)
  · cases h

theorem encodeByte_body (b : Byte) : BodyOf (.enc b) (encodeByte b) := by
  intro s t ha h
  have hm : s.mode = .enc := by simpa [admitted] using ha
  unfold encodeByte at h
  split at h
  · next hb => cases h; exact .inr (.encFiltered hm ((isFiltered_iff b).1 hb))
  · next hb =>
    have hb' : b ≠ Config.newline := fun e => hb ((isFiltered_iff b).2 e)
    split at h
    · cases h; exact .inl ⟨_, by decide, rfl⟩
    · next hc =>
      split at h
      · next hfit => cases h; exact .inr (.enc hm hb' hc ((fits_iff _ _).1 hfit))
      · cases h; exact .inl ⟨_, by decide, rfl⟩

theorem decodeChar_body (c : Byte) : BodyOf (.dec c) (decodeChar c) := by
  intro s t ha h
  have hm : s.mode = .dec := by simpa [admitted] using ha
  unfold decodeChar at h
  split at h
  · cases h; exact .inl ⟨_, by decide, rfl⟩
  · next d hc =>
    have hcd := charBit_eq_some hc
    subst hcd
    split at h
    · cases h; exact .inl ⟨_, by decide, rfl⟩
    · next hv =>
      have hv : s.rootValid = true := by simpa using hv
      split at h
      · cases h; exact .inl ⟨_, by decide, rfl⟩
      · next hi =>
        have hi : (s.nodeAt s.cur).isLeaf = false := by simpa using hi
        unfold walkEdge at h
        simp only at h
        split at h
        · next hl =>
          split at h
          · next hfit => cases h; exact .inr (.decEmit hm hv hi hl ((fits_iff _ _).1 hfit))
          · cases h; exact .inl ⟨_, by decide, rfl⟩
        · next hl => cases h; exact .inr (.decMove hm hv hi (by simpa using hl))

theorem endDecode_body : BodyOf .dend endDecode := by
  intro s t ha h
  have hm : s.mode = .dec := by simpa [admitted] using ha
  unfold endDecode at h
  split at h
  · next hfit => cases h; exact .inr (.dend hm hfit)
  · cases h; exact .inl ⟨_, by decide, rfl⟩

/-- Everything an answered command can do. -/
theorem exec_next {i : Instr} {s t : State} (h : exec i s = .next t) :
    (i = .clr ∧ t = s.cleared) ∨ (i ≠ .clr ∧ s.fault ≠ .none ∧ t = s) ∨
      (i ≠ .clr ∧ s.fault = .none ∧ ∃ f, f ≠ .none ∧ t = s.raise f (encode i)) ∨
      (i ≠ .clr ∧ s.fault = .none ∧ Effect i s t) := by
  have go : i ≠ .clr → ∀ body, BodyOf i body → dispatch i body s = .next t →
      (i ≠ .clr ∧ s.fault ≠ .none ∧ t = s) ∨
      (i ≠ .clr ∧ s.fault = .none ∧ ∃ f, f ≠ .none ∧ t = s.raise f (encode i)) ∨
      (i ≠ .clr ∧ s.fault = .none ∧ Effect i s t) := by
    intro hi body hb hd
    obtain ⟨a, b⟩ | ⟨a, b⟩ | ⟨a, b⟩ := dispatch_next hb hd
    · exact .inl ⟨hi, a, b⟩
    · exact .inr (.inl ⟨hi, a, b⟩)
    · exact .inr (.inr ⟨hi, a, b⟩)
  cases i with
  | clr => cases h; exact .inl ⟨rfl, rfl⟩
  | nop =>
    exact .inr (go (by decide) _ (fun s t _ h => by cases h; exact .inr .nop) h)
  | cnt b => exact .inr (go (by simp) _ (countByte_body b) h)
  | bld => exact .inr (go (by decide) _ buildBody_body h)
  | gen => exact .inr (go (by decide) _ generateBody_body h)
  | ebeg =>
    simp only [exec, execEbeg] at h
    refine .inr (go (by decide) _ (fun s t ha h => ?_) h)
    simp only [admitted, Bool.and_eq_true, beq_iff_eq] at ha
    cases h
    exact .inr (.ebeg ha.1 ha.2)
  | enc b => exact .inr (go (by simp) _ (encodeByte_body b) h)
  | eend =>
    simp only [exec, execEend] at h
    refine .inr (go (by decide) _ (fun s t ha h => ?_) h)
    cases h
    exact .inr (.eend (by simpa [admitted] using ha))
  | dbeg =>
    simp only [exec, execDbeg] at h
    refine .inr (go (by decide) _ (fun s t ha h => ?_) h)
    simp only [admitted, Bool.and_eq_true, beq_iff_eq] at ha
    cases h
    exact .inr (.dbeg ha.1 ha.2)
  | dec c => exact .inr (go (by simp) _ (decodeChar_body c) h)
  | dend => exact .inr (go (by decide) _ endDecode_body h)

/-- Every command but CLR is ignored while a fault is recorded. -/
theorem exec_faulted {i : Instr} {s : State} (hf : s.fault ≠ .none) (hi : i ≠ .clr) :
    exec i s = .next s := by
  cases i <;>
    first
    | exact absurd rfl hi
    | (simp only [exec, execNop, execCnt, execBld, execGen, execEbeg, execEnc, execEend, execDbeg,
        execDec, execDend]; exact dispatch_faulted hf)

/-- A command that is not admitted raises ILLEGAL_CMD. -/
theorem exec_not_admitted {i : Instr} {s : State} (hf : s.fault = .none) (ha : admitted i s = false) :
    exec i s = .next (s.raise .illegalCmd (encode i)) := by
  cases i <;>
    first
    | (simp [admitted] at ha; done)
    | (simp only [exec, execCnt, execBld, execGen, execEbeg, execEnc, execEend, execDbeg,
        execDec, execDend]; exact dispatch_illegal hf ha)

/-- An effect records no fault. -/
theorem Effect.fault_eq {i : Instr} {s t : State} (h : Effect i s t) : t.fault = s.fault := by
  cases h <;> first | rfl | (unfold State.withTree; split <;> rfl)

/-- Every step is a wait, a reset, a rejected word, or a command. -/
theorem step_next {s t : State} (h : step s = .next t) :
    (s.host = [] ∧ t = s) ∨ (∃ rest, s.host = .rst :: rest ∧ t = (s.taken rest).cleared) ∨
      (∃ w rest y, s.host = .cmd w :: rest ∧ decode w = .illegal y ∧
        t = rejectWord w (s.taken rest)) ∨
      ∃ w rest i, s.host = .cmd w :: rest ∧ decode w = .instr i ∧ exec i (s.taken rest) = .next t := by
  unfold step takeInput at h
  split at h
  · next hh => cases h; exact .inl ⟨hh, rfl⟩
  · next rest hh => cases h; exact .inr (.inl ⟨rest, hh, rfl⟩)
  · next w rest hh =>
    unfold issue at h
    split at h
    · next i hi => exact .inr (.inr (.inr ⟨w, rest, i, hh, hi, h⟩))
    · next y hy => cases h; exact .inr (.inr (.inl ⟨w, rest, y, hh, hy, rfl⟩))

/-- A sequence of commands is its first part, then the rest from where that ended. -/
theorem execAll_append {s t : State} (is js : List Instr) (h : execAll is s = .next t) :
    execAll (is ++ js) s = execAll js t := by
  induction is generalizing s with
  | nil => cases h; rfl
  | cons i is ih =>
    simp only [execAll, List.cons_append] at h ⊢
    split at h
    · exact ih h
    · cases h
    · cases h

end Sys2Proof.Machine
end

