-- ==== Sys2Proof/Laws/PerInstr.lean ====
section
/-! SUPPORT. What holds of every command as a word (30_encoding.md R83): it is selected by the row of its own
mnemonic in the opcode map and by no other row. One lemma a constructor. -/

namespace Sys2Proof.Laws.Words

/-- A row of the opcode map selects the command's word exactly when it is the row of its mnemonic. -/
def Statement (i : Instr) : Prop :=
  ∀ r ∈ opcodeMap, r.selects (encode i) = true ↔ r.mnemonic = i.mnemonic

theorem nop : Statement .nop := by unfold Statement; decide +kernel

theorem clr : Statement .clr := by unfold Statement; decide +kernel

theorem cnt (b : Byte) : Statement (.cnt b) := by unfold Statement; revert b; decide +kernel

theorem bld : Statement .bld := by unfold Statement; decide +kernel

theorem gen : Statement .gen := by unfold Statement; decide +kernel

theorem ebeg : Statement .ebeg := by unfold Statement; decide +kernel

theorem enc (b : Byte) : Statement (.enc b) := by unfold Statement; revert b; decide +kernel

theorem eend : Statement .eend := by unfold Statement; decide +kernel

theorem dbeg : Statement .dbeg := by unfold Statement; decide +kernel

theorem dec (c : Byte) : Statement (.dec c) := by unfold Statement; revert c; decide +kernel

theorem dend : Statement .dend := by unfold Statement; decide +kernel

end Sys2Proof.Laws.Words
end

