-- ==== Sys2Proof/Tests/Slice0.lean ====
section
/-! SUPPORT. The model's own tests, their expected results taken from spec/95_test_vectors.md, and for each
statement of Certificates/Slice0/Obligations.lean a witness that its hypotheses can be met. -/

namespace Sys2Proof.Machine.Tests

-- One theorem at a time: each evaluates a small machine in the kernel, and many at once want many threads.
set_option Elab.async false

/-! ## Small states -/

/-- A view of the state a command answers; none where it answers no state. -/
def after {α : Type} (r : Result) (f : State → α) : Option α :=
  match r with
  | .next t => some (f t)
  | .fault _ => none
  | .refused _ => none

theorem after_some {α : Type} {r : Result} {f : State → α} {y : α} (h : after r f = some y) :
    ∃ t, r = .next t ∧ f t = y := by
  unfold after at h
  split at h
  · next t => exact ⟨t, rfl, by simpa using h⟩
  · cases h
  · cases h

/-- The fault, its word, the output length and the mode: what a faulting command shows. -/
def faultView (t : State) : FaultCode × Word × Nat × Mode := (t.fault, t.faultCmd, t.outLen, t.mode)

/-- A frequency table with these counts and 0 elsewhere. -/
def counts (l : List (Byte × Weight)) : Table Weight :=
  l.foldl (fun t p => Table.put t p.1 p.2) (Vector.replicate 256 0#32)

/-- A code table with these codes and no other. -/
def codes (l : List (Byte × Code)) : Table (Option Code) :=
  l.foldl (fun t p => Table.put t p.1 (some p.2)) (Vector.replicate 256 none)

def leafOf (b : Byte) (w : Weight) : Node := ⟨true, b, w, 0x1FF#9, 0x1FF#9⟩

def innerOf (w : Weight) (l r : Idx) : Node := ⟨false, 0x00#8, w, l, r⟩

/-- The reset state of a block whose OUT_CAP is 16. -/
def idle : State := State.reset.withOutCap 16

/-- The counts of V1, "aaabbc". -/
def v1Counted : State := { idle with freq := counts [(0x61#8, 3#32), (0x62#8, 2#32), (0x63#8, 1#32)] }

/-- The tree of V1, as the vector lists it. -/
def v1Nodes : List Node :=
  [leafOf 0x61#8 3#32, leafOf 0x62#8 2#32, leafOf 0x63#8 1#32, innerOf 3#32 2#9 1#9, innerOf 6#32 0#9 3#9]

/-- V1 after BLD. -/
def v1Built : State :=
  { v1Counted with node := v1Nodes, nleaf := 3#9, root := 4#9, rootValid := true, phase := .built }

/-- V1 after GEN. -/
def v1Ready : State :=
  { v1Built with code := codes [(0x61#8, [false]), (0x62#8, [true, true]), (0x63#8, [true, false])],
                 phase := .ready }

/-- V1 in an encode session. -/
def v1Enc : State := { v1Ready with mode := .enc }

/-- V1 in a decode session, at the root. -/
def v1Dec : State := { v1Ready with mode := .dec, cur := 4#9 }

/-- The tree of V7 without its newlines, "aba": a 2, b 1. -/
def v7Nodes : List Node := [leafOf 0x61#8 2#32, leafOf 0x62#8 1#32, innerOf 3#32 1#9 0#9]

/-- V7 after BLD. -/
def v7Built : State :=
  { idle with freq := counts [(0x61#8, 2#32), (0x62#8, 1#32)], node := v7Nodes, nleaf := 2#9,
              root := 2#9, rootValid := true, phase := .built }

/-- V7 after GEN, with this session open. -/
def v7Ready (m : Mode) : State :=
  { v7Built with code := codes [(0x61#8, [true]), (0x62#8, [false])], phase := .ready, mode := m,
                 cur := if m = .dec then 2#9 else 0x1FF#9 }

/-- The single-leaf tree of V8, "zzzz", after BLD. -/
def v8Built : State :=
  { idle with freq := counts [(0x7A#8, 4#32)], node := [leafOf 0x7A#8 4#32], nleaf := 1#9, root := 0#9,
              rootValid := true, phase := .built }

/-- V8 after GEN, with this session open. -/
def v8Ready (m : Mode) : State :=
  { v8Built with code := codes [(0x7A#8, [])], phase := .ready, mode := m,
                 cur := if m = .dec then 0#9 else 0x1FF#9 }

/-- The empty tree of P4 after GEN. -/
def p4Ready : State := { idle with phase := .ready }

/-- A count that is full (V22). -/
def v22Full : State := { idle with freq := counts [(0x61#8, 0xFFFFFFFF#32)] }

/-- Counts whose total passes WMAX (V10). -/
def v10Over : State := { idle with freq := counts [(0x61#8, 0xFFFFFFFF#32), (0x62#8, 1#32)] }

/-- A faulted block (V26). -/
def v26Faulted : State := { idle with fault := .illegalCmd, faultCmd := 0xB000#16 }

/-! ## Encoding: the words of 95_test_vectors.md 2.1 -/

theorem test_decode_nop : decode 0x0000#16 = .instr .nop := by decide
theorem test_decode_clr : decode 0x1000#16 = .instr .clr := by decide
theorem test_decode_cnt : decode 0x20FF#16 = .instr (.cnt 0xFF#8) := by decide
theorem test_decode_bld : decode 0x3000#16 = .instr .bld := by decide
theorem test_decode_gen : decode 0x4000#16 = .instr .gen := by decide
theorem test_decode_ebeg : decode 0x5000#16 = .instr .ebeg := by decide
theorem test_decode_enc : decode 0x600A#16 = .instr (.enc 0x0A#8) := by decide
theorem test_decode_eend : decode 0x7000#16 = .instr .eend := by decide
theorem test_decode_dbeg : decode 0x8000#16 = .instr .dbeg := by decide
theorem test_decode_dec : decode 0x9030#16 = .instr (.dec 0x30#8) := by decide
theorem test_decode_dend : decode 0xA000#16 = .instr .dend := by decide
theorem test_decode_reserved_opcode :
    decode 0xB000#16 = .illegal .reservedOpcode ∧ decode 0xC123#16 = .illegal .reservedBits ∧
      decode 0xF000#16 = .illegal .reservedOpcode := by decide
theorem test_decode_reserved_bits :
    decode 0x2161#16 = .illegal .reservedBits ∧ decode 0x9F30#16 = .illegal .reservedBits := by decide
theorem test_decode_operand_on_format_z :
    decode 0x0001#16 = .illegal .operandOnFormatZ ∧ decode 0x1001#16 = .illegal .operandOnFormatZ := by
  decide

/-- R83: no word is the command of two rows. -/
theorem test_rows_disjoint :
    opcodeMap.Pairwise (fun r q => (r.matchBits &&& q.maskBits) ≠ q.matchBits ∧
      (q.matchBits &&& r.maskBits) ≠ r.matchBits) := by decide +kernel

theorem test_decode_table_word :
    decodeTableWord 16 0x2061 = some (.cnt 0x61#8) ∧ decodeTableWord 16 0x3001 = none := by decide

/-! ## Well-formedness: an ill-formed written command for each check of R89 -/

theorem test_well_formed : AsmCommand.WellFormed ⟨.CNT, some 255⟩ = true := by decide
theorem test_ill_formed_operand_on_z : AsmCommand.WellFormed ⟨.BLD, some 0⟩ = false := by decide
theorem test_ill_formed_no_operand : AsmCommand.WellFormed ⟨.ENC, none⟩ = false := by decide
theorem test_ill_formed_operand_wide : AsmCommand.WellFormed ⟨.DEC, some 256⟩ = false := by decide

/-! ## Assembler: the examples of R89 and R90 -/

theorem test_assemble_character :
    assembleLine ['C', 'N', 'T', ' ', '\'', 'a', '\'', ' ', ';', 'x'] = .commands [.cnt 0x61#8] := by
  decide +kernel
theorem test_assemble_hex :
    assembleLine ['E', 'N', 'C', ' ', '0', 'x', '0', 'A'] = .commands [.enc 0x0A#8] := by decide +kernel
theorem test_assemble_decimal_wide : assembleLine ['C', 'N', 'T', ' ', '2', '5', '6'] = .error := by
  decide +kernel
/-- `ENCS "a\n"`: the escape is the byte NEWLINE. -/
theorem test_assemble_string :
    assembleLine ['E', 'N', 'C', 'S', ' ', Char.ofNat 34, 'a', '\\', 'n', Char.ofNat 34] =
      .commands [.ebeg, .enc 0x61#8, .enc 0x0A#8, .eend] := by decide +kernel
/-- R90: the words of `CODEC "aaabbc"`. -/
theorem test_codec_words :
    (Pseudo.codec [0x61#8, 0x61#8, 0x61#8, 0x62#8, 0x62#8, 0x63#8]).expand.map encode =
      [0x1000#16, 0x2061#16, 0x2061#16, 0x2061#16, 0x2062#16, 0x2062#16, 0x2063#16, 0x3000#16, 0x4000#16,
       0x5000#16, 0x6061#16, 0x6061#16, 0x6061#16, 0x6062#16, 0x6062#16, 0x6063#16, 0x7000#16] := by
  decide +kernel

/-! ## Dispatch, NOP, CLR, CNT (95_test_vectors.md 2.2) -/

/-- V21. -/
theorem test_nop : exec .nop v1Enc = .next v1Enc := by rfl
/-- R100: a word placed where the block fetches is the one the next step runs. -/
theorem test_step_runs_placed_word :
    after (step (State.reset.withFetchWord 16 0x2061)) (fun t => (Table.get t.freq 0x61#8, t.host)) =
      some (1#32, []) := by decide +kernel
/-- V29. -/
theorem test_clr_clears_fault :
    after (exec .clr v26Faulted) (fun t => (t.fault, t.faultCmd, t.status)) =
      some (.none, 0#16, 0#32) := by decide +kernel
/-- V28: 0x1001 is no CLR. -/
theorem test_clr_word_is_exact : issue 0x1001#16 v26Faulted = .next v26Faulted := by rfl
/-- V20, its last word. -/
theorem test_cnt_counts :
    after (exec (.cnt 0x62#8) v7Built.cleared) (fun t => (Table.get t.freq 0x62#8, Table.get t.freq 0x61#8)) =
      some (1#32, 0#32) := by decide +kernel
/-- V22. -/
theorem test_cnt_overflow :
    after (exec (.cnt 0x61#8) v22Full) (fun t => (faultView t, t.status)) =
      some ((.resource, 0x2061#16, 0, .none), 0x40#32) := by decide +kernel

/-! ## Queue and BLD (95_test_vectors.md 2.3 and 2.4) -/

/-- V31: behind both nodes of equal weight, before the heavier one. -/
theorem test_pq_insert_stable :
    pqInsert (fun i => if i = 0#9 then 1#32 else if i = 3#9 then 5#32 else 2#32) 4#9
      [0#9, 1#9, 2#9, 3#9] = [0#9, 1#9, 2#9, 4#9, 3#9] := by decide
/-- V35. -/
theorem test_pq_pop : pqPop [7#9, 8#9, 9#9] = some (7#9, [8#9, 9#9]) := by decide
/-- V1. -/
theorem test_bld :
    after (exec .bld v1Counted) (fun t => (t.node, t.nleaf, t.root, t.pq, t.phase)) =
      some (v1Nodes, 3#9, 4#9, [], .built) := by decide +kernel
/-- V5: a tie between leaves, and a new internal node behind a leaf of equal weight. -/
theorem test_bld_ties :
    after (exec .bld { idle with freq := counts [(0x61#8, 2#32), (0x62#8, 2#32), (0x63#8, 2#32),
      (0x64#8, 2#32), (0x65#8, 1#32)] }) (fun t => (t.root, t.node.drop 5)) =
      some (8#9, [innerOf 3#32 4#9 0#9, innerOf 4#32 1#9 2#9, innerOf 5#32 3#9 5#9,
        innerOf 9#32 6#9 7#9]) := by decide +kernel

/-- V1: c is popped before b, so the children of the first merge are in this order and in no other. -/
theorem test_popped_first_is_left : poppedBefore v1Nodes 2#9 1#9 ∧ ¬ poppedBefore v1Nodes 1#9 2#9 := by
  unfold poppedBefore; decide
/-- V3, R132 (b): a leaf is popped before the internal node of equal weight. -/
theorem test_popped_tie :
    poppedBefore [leafOf 0x61#8 1#32, leafOf 0x62#8 2#32, leafOf 0x63#8 1#32, innerOf 2#32 0#9 2#9] 1#9 3#9 := by
  unfold poppedBefore; decide

/-! ## GEN -/

/-- V1. -/
theorem test_gen :
    after (exec .gen v1Built) (fun t => [0x61#8, 0x62#8, 0x63#8, 0x64#8].map (Table.get t.code)) =
      some [some [false], some [true, true], some [true, false], none] := by decide +kernel
/-- V8. -/
theorem test_gen_single_leaf :
    after (exec .gen v8Built) (fun t => (Table.get t.code 0x7A#8, Table.get t.code 0x00#8, t.phase)) =
      some (some [], none, .ready) := by decide +kernel

/-! ## Encoder (95_test_vectors.md 2.6) -/

/-- R150's example: what the last session left goes. -/
theorem test_ebeg :
    after (exec .ebeg { v1Ready with out := [0x30#8, 0x31#8] }) (fun t => (t.outLen, t.mode)) =
      some (0, .enc) := by decide +kernel
/-- R151's example. -/
theorem test_enc :
    after (exec (.enc 0x62#8) { v1Enc with out := [0x30#8, 0x30#8, 0x30#8] }) (fun t => t.out) =
      some [0x30#8, 0x30#8, 0x30#8, 0x31#8, 0x31#8] := by decide +kernel
/-- V46, its last word. -/
theorem test_enc_capacity :
    after (exec (.enc 0x62#8) { v1Enc with out := [0x30#8, 0x31#8, 0x31#8, 0x30#8], outCap := 4 }) faultView =
      some (.resource, 0x6062#16, 0, .none) := by decide +kernel
/-- R152's example. -/
theorem test_eend :
    after (exec .eend { v1Enc with out := [0x30#8, 0x31#8, 0x31#8] }) (fun t => (t.out, t.mode)) =
      some ([0x30#8, 0x31#8, 0x31#8], .none) := by decide +kernel
/-- V49: a command of the other session is refused. -/
theorem test_session_refused :
    after (exec .dbeg v1Enc) faultView = some (.illegalCmd, 0x8000#16, 0, .none) := by decide +kernel

/-! ## Decoder (95_test_vectors.md 2.7) -/

/-- R165's example. -/
theorem test_dbeg :
    after (exec .dbeg { v1Ready with trunc := true }) (fun t => (t.cur, t.outLen, t.mode, t.trunc)) =
      some (4#9, 0, .dec, false) := by decide +kernel
/-- R166's example: '1' from the root, then '1' from node 3. -/
theorem test_dec :
    after (exec (.dec 0x31#8) v1Dec) (fun t => (t.cur, t.out)) = some (3#9, []) ∧
      after (exec (.dec 0x31#8) { v1Dec with cur := 3#9 }) (fun t => (t.cur, t.out)) =
        some (4#9, [0x62#8]) := by decide +kernel
/-- V12, its last word. -/
theorem test_dec_malformed :
    after (exec (.dec 0x32#8) { v1Dec with cur := 3#9, out := [0x61#8] })
      (fun t => (faultView t, t.cur, t.status)) =
      some ((.malformed, 0x9032#16, 0, .none), 3#9, 0x52#32) := by decide +kernel
/-- V9 and V66. -/
theorem test_dend_single_leaf :
    after (exec .dend (v8Ready .dec)) (fun t => (t.out, t.trunc)) =
      some ([0x7A#8, 0x7A#8, 0x7A#8, 0x7A#8], false) := by decide +kernel
/-- V62, its last word. -/
theorem test_dend_truncated :
    after (exec .dend { v1Dec with cur := 3#9, out := [0x61#8] }) (fun t => (t.out, t.trunc, t.status)) =
      some ([0x61#8], true, 0x32#32) := by decide +kernel

/-! ## Read port (95_test_vectors.md 2.5) -/

theorem test_read_registers :
    v1Ready.hostRead 0#32 = 0x12#32 ∧ v1Ready.hostRead 5#32 = 4#32 ∧ v1Ready.hostRead 7#32 = 0x1FF#32 := by
  decide +kernel
theorem test_read_nodes :
    v1Ready.hostRead 0x400#32 = 0x0587FFFF#32 ∧ v1Ready.hostRead 0x406#32 = 0x202#32 ∧
      v1Ready.hostRead 0x408#32 = 0x600#32 ∧ v1Ready.hostRead 0x409#32 = 6#32 := by decide +kernel
theorem test_read_codes :
    v1Ready.hostRead 0x862#32 = 0x102#32 ∧ v1Ready.hostRead 0x864#32 = 0#32 ∧
      v1Ready.hostRead 0x1310#32 = 3#32 ∧ v1Ready.hostRead 0x1318#32 = 1#32 := by decide +kernel
theorem test_read_unmapped :
    v1Ready.hostRead 9#32 = 0#32 ∧ v1Ready.hostRead 0x300#32 = 0#32 ∧
      v1Ready.hostRead 0x7FFFFFFF#32 = 0#32 := by decide +kernel

/-! ## The invariants hold of small states -/

theorem v7_leafAt (p : Code) (b : Byte) :
    leafAt v7Nodes 2#9 p = some b ↔ (p = [false] ∧ b = 0x62#8) ∨ (p = [true] ∧ b = 0x61#8) := by
  have h2 : nodeRead v7Nodes 2#9 = innerOf 3#32 1#9 0#9 := rfl
  have h1 : nodeRead v7Nodes 1#9 = leafOf 0x62#8 1#32 := rfl
  have h0 : nodeRead v7Nodes 0#9 = leafOf 0x61#8 2#32 := rfl
  rcases p with _ | ⟨_ | _, _ | ⟨e, p⟩⟩ <;>
    simp [leafAt, h0, h1, h2, innerOf, leafOf, Node.child, eq_comm]

theorem v7_tree (s : State) (hn : s.node = v7Nodes) (hl : s.nleaf = 2#9) (hr : s.root = 2#9)
    (hf : s.freq = counts [(0x61#8, 2#32), (0x62#8, 1#32)]) : TreeShape s := by
  have get : ∀ i x, s.node[i]? = some x →
      (i = 0 ∧ x = leafOf 0x61#8 2#32) ∨ (i = 1 ∧ x = leafOf 0x62#8 1#32) ∨
        (i = 2 ∧ x = innerOf 3#32 1#9 0#9) := by
    intro i x h
    rw [hn] at h
    rcases i with _ | _ | _ | i <;> simp [v7Nodes] at h <;> simp [h]
  have hall : ∀ b, Table.get (counts [(0x61#8, 2#32), (0x62#8, 1#32)]) b ≠ 0#32 →
      b = 0x61#8 ∨ b = 0x62#8 := by decide +kernel
  have nl : s.nleaf.toNat = 2 := by rw [hl]; rfl
  constructor
  · intro i x h hi
    obtain ⟨rfl, rfl⟩ | ⟨rfl, rfl⟩ | ⟨rfl, rfl⟩ := get i x h
    · rw [hf]; decide +kernel
    · rw [hf]; decide +kernel
    · omega
  · intro i j x y hx hy hij hj
    obtain ⟨rfl, rfl⟩ | ⟨rfl, rfl⟩ | ⟨rfl, rfl⟩ := get i x hx <;>
      obtain ⟨rfl, rfl⟩ | ⟨rfl, rfl⟩ | ⟨rfl, rfl⟩ := get j y hy <;> first | omega | decide
  · intro _ b hb
    rw [hf] at hb
    obtain rfl | rfl := hall b hb
    · exact ⟨0, _, by omega, by rw [hn]; rfl, rfl⟩
    · exact ⟨1, _, by omega, by rw [hn]; rfl, rfl⟩
  · intro i x h hi
    obtain ⟨rfl, rfl⟩ | ⟨rfl, rfl⟩ | ⟨rfl, rfl⟩ := get i x h
    · omega
    · omega
    · simp only [State.nodeAt, hn]; decide
  · intro c hc
    have : s.nnode = 3 := by simp [State.nnode, hn, v7Nodes]
    refine ⟨2, innerOf 3#32 1#9 0#9, by rw [hn]; rfl, rfl, ?_⟩
    have : c = 0 ∨ c = 1 := by omega
    obtain rfl | rfl := this <;> decide
  · intro i j x y c hx hy hxl hyl _ _
    obtain ⟨rfl, rfl⟩ | ⟨rfl, rfl⟩ | ⟨rfl, rfl⟩ := get i x hx <;>
      obtain ⟨rfl, rfl⟩ | ⟨rfl, rfl⟩ | ⟨rfl, rfl⟩ := get j y hy <;>
      first | rfl | exact absurd hxl (by decide) | exact absurd hyl (by decide)
  · intro i x hx hxl
    obtain ⟨rfl, rfl⟩ | ⟨rfl, rfl⟩ | ⟨rfl, rfl⟩ := get i x hx
    · cases hxl
    · cases hxl
    · rw [hn]
      refine ⟨by unfold poppedBefore; decide, fun j hj => ?_⟩
      have hc := hj.2 2 (innerOf 3#32 1#9 0#9) le_rfl rfl rfl
      have h0 : j.toNat ≠ 0 := fun e => hc.2 (BitVec.eq_of_toNat_eq e.symm)
      have h1 : j.toNat ≠ 1 := fun e => hc.1 (BitVec.eq_of_toNat_eq e.symm)
      have := hj.1
      omega
  · intro _
    rw [State.nodeAt, hn, hr, hf]
    decide +kernel

theorem v7Built_inv : v7Built.Inv where
  bookkeeping := by constructor <;> decide +kernel
  tree := v7_tree _ rfl rfl rfl rfl
  codes := ⟨fun _ b => Table.get_replicate none b, fun h => by cases h⟩
  position := by constructor <;> decide +kernel

theorem v7Ready_inv (m : Mode) : (v7Ready m).Inv where
  bookkeeping := by cases m <;> constructor <;> decide +kernel
  tree := v7_tree _ rfl rfl rfl rfl
  codes := by
    refine ⟨fun h => absurd rfl h, fun _ b p => ?_⟩
    have : (v7Ready m).code = codes [(0x61#8, [true]), (0x62#8, [false])] := rfl
    rw [show leafAt (v7Ready m).node (v7Ready m).root p = leafAt v7Nodes 2#9 p from rfl, v7_leafAt, this]
    simp only [codes, List.foldl_cons, List.foldl_nil, Table.get_put, Table.get_replicate]
    have : (v7Ready m).rootValid = true := rfl
    split
    · next h => subst h; simp [this, eq_comm]
    · next h =>
      split
      · next h' => subst h'; simp [this, eq_comm]
      · next h' => simp [h, h']
  position := by cases m <;> constructor <;> decide +kernel

theorem v8Ready_inv (m : Mode) : (v8Ready m).Inv where
  bookkeeping := by cases m <;> constructor <;> decide +kernel
  tree := by
    have get : ∀ i x, (v8Ready m).node[i]? = some x → i = 0 ∧ x = leafOf 0x7A#8 4#32 := by
      intro i x h
      rcases i with _ | i
      · simp [v8Ready, v8Built] at h
        simp [h]
      · simp [v8Ready, v8Built] at h
    have hall : ∀ b, Table.get (counts [(0x7A#8, 4#32)]) b ≠ 0#32 → b = 0x7A#8 := by decide +kernel
    have nl : (v8Ready m).nleaf.toNat = 1 := rfl
    constructor
    · intro i x h _
      obtain ⟨rfl, rfl⟩ := get i x h
      exact ⟨rfl, rfl, rfl, by rw [show (v8Ready m).freq = counts [(0x7A#8, 4#32)] from rfl]; decide +kernel,
        by decide⟩
    · intro i j x y _ _ hij hj; omega
    · intro _ b hb
      obtain rfl := hall b hb
      exact ⟨0, _, by omega, rfl, rfl⟩
    · intro i x h hi
      obtain ⟨rfl, rfl⟩ := get i x h
      omega
    · intro c hc
      have : (v8Ready m).nnode = 1 := rfl
      omega
    · intro i j x y c hx hy hxl
      obtain ⟨rfl, rfl⟩ := get i x hx
      cases hxl
    · intro i x hx hxl
      obtain ⟨rfl, rfl⟩ := get i x hx
      cases hxl
    · intro _
      rw [show (v8Ready m).freq = counts [(0x7A#8, 4#32)] from rfl,
        show (v8Ready m).nodeAt (v8Ready m).root = leafOf 0x7A#8 4#32 from rfl]
      decide +kernel
  codes := by
    refine ⟨fun h => absurd rfl h, fun _ b p => ?_⟩
    have hr : nodeRead (v8Ready m).node (v8Ready m).root = leafOf 0x7A#8 4#32 := rfl
    rw [show (v8Ready m).code = Table.put (Vector.replicate 256 none) 0x7A#8 (some []) from rfl, Table.get_put,
      Table.get_replicate]
    have hv : (v8Ready m).rootValid = true := rfl
    cases p <;> simp [leafAt, hr, leafOf, hv, eq_comm]
  position := by cases m <;> constructor <;> decide +kernel

/-! ## Witnesses: the hypotheses of each statement, met together, clause by clause -/

theorem witness_DecodeOfEncodeIsTheCommand : (Instr.cnt 0xFF#8).WellFormed = true := by decide

theorem witness_EncodeOfDecodeIsTheWord : decode 0x20FF#16 = .instr (.cnt 0xFF#8) := by decide

theorem witness_OpcodeMapSelectsTheCommand :
    ⟨.DEC, .B, 0x9000#16, 0xFF00#16⟩ ∈ opcodeMap ∧ (0xB000#16).extractLsb' 12 4 > 0xA#4 ∧
      idle.fault = .none := by decide

theorem witness_IllegalWordsAreRejected :
    decode 0xB000#16 = .illegal .reservedOpcode ∧ idle.fault = .none ∧ v26Faulted.fault ≠ .none := by decide

theorem witness_StepRunsTheDecodedCommand :
    (idle.withCommands [0x2061#16, 0x3000#16]).host = .cmd 0x2061#16 :: [.cmd 0x3000#16] ∧
      decode 0x2061#16 = .instr (.cnt 0x61#8) ∧
      (idle.withCommands [0xB000#16]).host = .cmd 0xB000#16 :: [] ∧
      decode 0xB000#16 = .illegal .reservedOpcode ∧ idle.host = [] := by decide

theorem witness_ResetRequestResetsTheBlock :
    ({ v26Faulted with host := [.rst, .cmd 0x2061#16] } : State).host = .rst :: [.cmd 0x2061#16] := by decide

theorem witness_InvariantStatesGoOn : v7Built.Inv := v7Built_inv

theorem witness_ClrResetsEverything : v26Faulted.fault ≠ .none := by decide

theorem witness_CntCountsOneByte :
    v26Faulted.fault ≠ .none ∧
      (v1Built.fault = .none ∧ v1Built.phase ≠ .idle) ∧
      (v22Full.fault = .none ∧ v22Full.phase = .idle ∧ (0x61#8) ≠ 0x0A#8 ∧
        (Table.get v22Full.freq 0x61#8).toNat = 4294967295) ∧
      ((0x62#8) ≠ 0x0A#8 ∧ (Table.get v22Full.freq 0x62#8).toNat ≠ 4294967295) := by decide +kernel

theorem witness_CountingAddsOccurrences :
    idle.fault = .none ∧ idle.phase = .idle ∧
      ∀ b, b ≠ 0x0A#8 → (Table.get idle.freq b).toNat + [0x61#8, 0x0A#8, 0x61#8].count b ≤ 4294967295 := by
  refine ⟨rfl, rfl, fun b _ => ?_⟩
  have h : Table.get idle.freq b = 0#32 := Table.get_replicate 0#32 b
  have := List.count_le_length (a := b) (l := [0x61#8, 0x0A#8, 0x61#8])
  simp only [List.length_cons, List.length_nil] at this
  rw [h]
  simp only [BitVec.toNat_ofNat]
  omega

/-- The three parts: a state with no fault; a command that changes PHASE; one that changes MODE. -/
theorem witness_AdmissionTableIsTheControlFlow :
    idle.fault = .none ∧
      (∃ t, exec .gen v7Built = .next t ∧ t.phase ≠ v7Built.phase) ∧
      (∃ t, exec .ebeg (v7Ready .none) = .next t ∧ t.mode ≠ (v7Ready .none).mode) := by
  refine ⟨rfl, ?_, ⟨_, rfl, by decide⟩⟩
  obtain ⟨t, h, e⟩ := after_some (f := fun t => t.phase) (y := .ready) (r := exec .gen v7Built) (by decide +kernel)
  exact ⟨t, h, by rw [e]; decide⟩

theorem witness_FaultsArePrecise :
    idle.fault = .none ∧ ∃ t, issue 0x4000#16 idle = .next t ∧ t.fault ≠ .none := ⟨rfl, _, rfl, by decide⟩

theorem witness_FaultedBlockIgnoresWords : v26Faulted.fault ≠ .none ∧ (0x1001#16) ≠ 0x1000#16 := by decide

/-- A faulted block that leaves the fault, and one that keeps it. -/
theorem witness_FaultIsLeftOnlyByClrOrReset :
    (∃ t, step (v26Faulted.withCommands [0x1000#16]) = .next t ∧ t.fault = .none) ∧
      (∃ t, step (v26Faulted.withCommands [0x2061#16]) = .next t ∧ t.fault ≠ .none) ∧
      (v26Faulted.withCommands [0x1000#16]).fault ≠ .none := ⟨⟨_, rfl, rfl⟩, ⟨_, rfl, by decide⟩, by decide⟩

/-- A word that raises RESOURCE, by each of the five causes. -/
theorem witness_ResourceHasFiveCauses :
    (after (issue 0x2061#16 v22Full) (fun t => t.fault) = some .resource ∧
      after (issue 0x3000#16 v10Over) (fun t => t.fault) = some .resource ∧
      after (issue 0x6062#16 { v7Ready .enc with outCap := 0 }) (fun t => t.fault) = some .resource ∧
      after (issue 0x9030#16 { v7Ready .dec with outCap := 0 }) (fun t => t.fault) = some .resource ∧
      after (issue 0xA000#16 { v8Ready .dec with outCap := 3 }) (fun t => t.fault) = some .resource) ∧
      v22Full.fault = .none ∧ v10Over.fault = .none ∧ (v7Ready .enc).fault = .none ∧
      (v8Ready .dec).fault = .none := by decide +kernel

theorem witness_NoSymbolHasOneCause :
    (v7Ready .enc).fault = .none ∧
      after (issue 0x6071#16 (v7Ready .enc)) (fun t => t.fault) = some .noSymbol := by decide +kernel

/-- MALFORMED by each of the three causes. -/
theorem witness_MalformedHasThreeCauses :
    (v7Ready .dec).fault = .none ∧
      after (issue 0x9032#16 (v7Ready .dec)) (fun t => t.fault) = some .malformed ∧
      after (issue 0x9030#16 { p4Ready with mode := .dec }) (fun t => t.fault) = some .malformed ∧
      after (issue 0x9030#16 (v8Ready .dec)) (fun t => t.fault) = some .malformed := by decide +kernel

theorem witness_IllegalCmdHasTwoCauses :
    idle.fault = .none ∧ after (issue 0xB000#16 idle) (fun t => t.fault) = some .illegalCmd ∧
      after (issue 0x4000#16 idle) (fun t => t.fault) = some .illegalCmd := by decide +kernel

/-- An index inside the new place's first part, and one at the place itself: V31's queue. -/
theorem witness_InsertIsStableAndOrdered :
    (0 : Nat) < 3 ∧ [0#9, 1#9, 2#9, 3#9][0]? = some 0#9 ∧ [0#9, 1#9, 2#9, 3#9][3]? = some 3#9 := by decide

theorem witness_InsertKeepsTheQueueOrdered :
    [0#9, 1#9, 2#9, 3#9].Pairwise (fun a b =>
      ((fun i : Idx => if i = 0#9 then 1#32 else if i = 3#9 then 5#32 else 2#32) a).toNat ≤
        ((fun i : Idx => if i = 0#9 then 1#32 else if i = 3#9 then 5#32 else 2#32) b).toNat) := by decide

/-- A queue of two that one merge ends, a queue of one, and counts with a byte present. -/
theorem witness_MergeTakesTheFrontTwo :
    ([1#9].length ≤ 1) ∧ (1 ≤ [1#9, 0#9].length ∧ [1#9, 0#9].length ≤ 1 + 1) ∧
      presentBytes v1Counted.freq ≠ [] := by decide +kernel

/-- The total exactly at WMAX (V10's second case). -/
theorem witness_BldBuildsTheTree :
    v22Full.fault = .none ∧ v22Full.phase = .idle ∧ totalCount v22Full.freq ≤ 4294967295 := by decide +kernel

theorem witness_BldOverflowBuildsNothing :
    v10Over.fault = .none ∧ v10Over.phase = .idle ∧ totalCount v10Over.freq > 4294967295 := by decide +kernel

theorem witness_EmptyInputHasNoTree :
    idle.fault = .none ∧ idle.phase = .idle ∧ idle.mode = .none ∧ ∀ b, Table.get idle.freq b = 0#32 :=
  ⟨rfl, rfl, rfl, fun b => Table.get_replicate 0#32 b⟩

theorem witness_OneByteGivesTheSingleLeaf :
    v22Full.fault = .none ∧ v22Full.phase = .idle ∧ Table.get v22Full.freq 0x61#8 ≠ 0#32 ∧
      ∀ b, b ≠ 0x61#8 → Table.get v22Full.freq b = 0#32 := by decide +kernel

/-- Two states of the same counts that both build, and both build and make their table; and two orders of
the same bytes. -/
theorem witness_BuildDependsOnCountsAlone :
    (v1Counted.freq = ({ v1Counted with outCap := 3 } : State).freq ∧
      v1Counted.fault = .none ∧
      (∃ t, exec .bld v1Counted = .next t ∧ t.fault = .none) ∧
      (∃ t, exec .bld { v1Counted with outCap := 3 } = .next t ∧ t.fault = .none)) ∧
    ((∃ t, execAll tableSession v1Counted = .next t ∧ t.fault = .none) ∧
      (∃ t, execAll tableSession { v1Counted with outCap := 3 } = .next t ∧ t.fault = .none)) ∧
    ([0x62#8, 0x61#8].Perm [0x61#8, 0x62#8] ∧
      (∃ t, execAll (countSession [0x62#8, 0x61#8] ++ [.bld]) idle = .next t ∧ t.fault = .none) ∧
      (∃ t, execAll (countSession [0x61#8, 0x62#8] ++ [.bld]) idle = .next t ∧ t.fault = .none)) := by
  refine ⟨⟨rfl, rfl, ?_, ?_⟩, ⟨?_, ?_⟩, by decide, ?_, ?_⟩ <;>
    exact after_some (f := fun t => t.fault) (y := .none) (by decide +kernel)

theorem witness_TreeIsFrozen :
    (v7Ready .none).phase ≠ .idle ∧ Instr.ebeg ≠ .clr ∧ ∃ t, exec .ebeg (v7Ready .none) = .next t :=
  ⟨by decide, by decide, _, rfl⟩

theorem witness_GenStoresTheRootToLeafPaths :
    v7Built.Inv ∧ v7Built.fault = .none ∧ v7Built.phase = .built := ⟨v7Built_inv, rfl, rfl⟩

/-- The last clause: a byte with no entry in an encode session. -/
theorem witness_OneCodePerLeaf :
    (v7Ready .enc).Inv ∧ (v7Ready .enc).phase = .ready ∧ (v7Ready .enc).fault = .none ∧
      (v7Ready .enc).mode = .enc ∧ (0x71#8) ≠ 0x0A#8 ∧ Table.get (v7Ready .enc).code 0x71#8 = none :=
  ⟨v7Ready_inv _, rfl, rfl, rfl, by decide, by decide +kernel⟩

/-- Two codes of one table; the one code of a single-leaf tree. -/
theorem witness_CodesArePrefixFree :
    ((v7Ready .none).Inv ∧ (0x61#8) ≠ 0x62#8 ∧ Table.get (v7Ready .none).code 0x61#8 = some [true] ∧
      Table.get (v7Ready .none).code 0x62#8 = some [false] ∧ 2 ≤ (v7Ready .none).nleaf.toNat) ∧
    ((v8Ready .none).Inv ∧ (v8Ready .none).nleaf.toNat = 1 ∧
      Table.get (v8Ready .none).code 0x7A#8 = some []) :=
  ⟨⟨v7Ready_inv _, by decide, by decide +kernel, by decide +kernel, by decide⟩, v8Ready_inv _, rfl,
    by decide +kernel⟩

theorem witness_CodesFitThePathRegister :
    (v7Ready .none).Inv ∧ Table.get (v7Ready .none).code 0x61#8 = some [true] :=
  ⟨v7Ready_inv _, by decide +kernel⟩

theorem witness_CodeTableIsFrozen :
    (v7Ready .none).phase = .ready ∧ Instr.dbeg ≠ .clr ∧ ∃ t, exec .dbeg (v7Ready .none) = .next t :=
  ⟨rfl, by decide, _, rfl⟩

theorem witness_EbegOpensAnEncodeSession :
    v26Faulted.fault ≠ .none ∧
      (idle.fault = .none ∧ ¬ (idle.phase = .ready ∧ idle.mode = .none)) ∧
      ((v7Ready .none).fault = .none ∧ (v7Ready .none).phase = .ready ∧ (v7Ready .none).mode = .none) := by
  decide

/-- A code that ends exactly at the capacity fits, and one bit less does not. -/
theorem witness_EncAppendsTheCode :
    v26Faulted.fault ≠ .none ∧ (idle.fault = .none ∧ idle.mode ≠ .enc) ∧
      (v1Enc.fault = .none ∧ v1Enc.mode = .enc ∧ (0x71#8) ≠ 0x0A#8 ∧ Table.get v1Enc.code 0x71#8 = none) ∧
      ((0x62#8) ≠ 0x0A#8 ∧ Table.get v1Enc.code 0x62#8 = some [true, true] ∧
        ({ v1Enc with outCap := 1 } : State).outLen + 2 > ({ v1Enc with outCap := 1 } : State).outCap ∧
        ({ v1Enc with outCap := 2 } : State).outLen + 2 ≤ ({ v1Enc with outCap := 2 } : State).outCap) := by
  decide +kernel

theorem witness_EendClosesTheEncodeSession :
    v26Faulted.fault ≠ .none ∧ (v1Dec.fault = .none ∧ v1Dec.mode ≠ .enc) ∧
      (v1Enc.fault = .none ∧ v1Enc.mode = .enc) := by decide

theorem witness_EncodeSessionConcatenatesCodes :
    ((v7Ready .none).fault = .none ∧ (v7Ready .none).phase = .ready ∧ (v7Ready .none).mode = .none) ∧
      ((∀ b ∈ filterBytes [0x61#8, 0x0A#8, 0x62#8], Table.get (v7Ready .none).code b ≠ none) ∧
        ((filterBytes [0x61#8, 0x0A#8, 0x62#8]).flatMap fun b =>
          codeChars ((Table.get (v7Ready .none).code b).getD [])).length ≤ (v7Ready .none).outCap) ∧
      ∃ t, execAll (encodeSession [0x61#8]) (v7Ready .none) = .next t ∧ t.fault = .none :=
  ⟨by decide, by decide +kernel, after_some (f := fun t => t.fault) (y := .none) (by decide +kernel)⟩

theorem witness_EncoderIgnoresTheTree :
    (Instr.enc 0x61#8 = .ebeg ∨ (∃ b, Instr.enc 0x61#8 = .enc b) ∨ Instr.enc 0x61#8 = .eend) ∧
      ∃ t, exec (.enc 0x61#8) (v7Ready .enc) = .next t :=
  ⟨.inr (.inl ⟨_, rfl⟩), (after_some (f := fun t => t.fault) (y := .none) (by decide +kernel)).imp
    fun _ h => h.1⟩

theorem witness_DbegOpensADecodeSession :
    v26Faulted.fault ≠ .none ∧
      (v1Enc.fault = .none ∧ ¬ (v1Enc.phase = .ready ∧ v1Enc.mode = .none)) ∧
      (v1Ready.fault = .none ∧ v1Ready.phase = .ready ∧ v1Ready.mode = .none) := by decide

/-- The three MALFORMED causes; a leaf with a full and with a free buffer; an internal node. -/
theorem witness_DecWalksOneEdge :
    v26Faulted.fault ≠ .none ∧ (idle.fault = .none ∧ idle.mode ≠ .dec) ∧
      ((0x32#8) ≠ 0x30#8 ∧ (0x32#8) ≠ 0x31#8) ∧
      (p4Ready.fault = .none ∧ ({ p4Ready with mode := .dec } : State).mode = .dec ∧
        p4Ready.rootValid = false) ∧
      ((v8Ready .dec).fault = .none ∧ (v8Ready .dec).mode = .dec ∧
        ((v8Ready .dec).nodeAt (v8Ready .dec).cur).isLeaf = true) ∧
      (v1Dec.fault = .none ∧ v1Dec.mode = .dec ∧ v1Dec.rootValid = true ∧
        (v1Dec.nodeAt v1Dec.cur).isLeaf = false ∧
        (0#9 = (v1Dec.nodeAt v1Dec.cur).left ∧ (v1Dec.nodeAt 0#9).isLeaf = true) ∧
        (3#9 = (v1Dec.nodeAt v1Dec.cur).right ∧ (v1Dec.nodeAt 3#9).isLeaf = false) ∧
        v1Dec.outLen + 1 ≤ v1Dec.outCap ∧
        ({ v1Dec with outCap := 0 } : State).outLen + 1 > ({ v1Dec with outCap := 0 } : State).outCap) := by
  decide +kernel

/-- V65 and V66: the single leaf's bytes at one less than the capacity they need, and at exactly it. -/
theorem witness_DendEndsTheDecodeSession :
    v26Faulted.fault ≠ .none ∧ (v1Enc.fault = .none ∧ v1Enc.mode ≠ .dec) ∧
      ((v8Ready .dec).fault = .none ∧ (v8Ready .dec).mode = .dec ∧ (v8Ready .dec).rootValid = true ∧
        ((v8Ready .dec).nodeAt (v8Ready .dec).root).isLeaf = true ∧
        (v8Ready .dec).outLen + ((v8Ready .dec).nodeAt (v8Ready .dec).root).weight.toNat > 3 ∧
        (v8Ready .dec).outLen + ((v8Ready .dec).nodeAt (v8Ready .dec).root).weight.toNat ≤ 4) ∧
      (v1Dec.fault = .none ∧ v1Dec.mode = .dec ∧ v1Dec.rootValid = true ∧
        (v1Dec.nodeAt v1Dec.root).isLeaf = false) ∧
      (({ p4Ready with mode := .dec } : State).mode = .dec ∧ p4Ready.rootValid = false ∧
        p4Ready.fault = .none) := by decide +kernel

theorem witness_NoTreeDecodesNothing :
    p4Ready.fault = .none ∧ p4Ready.phase = .ready ∧ p4Ready.mode = .none ∧ p4Ready.rootValid = false := by
  decide

theorem witness_DecodingACodeEmitsItsByte :
    v1Dec.fault = .none ∧ v1Dec.mode = .dec ∧ v1Dec.rootValid = true ∧
      (v1Dec.nodeAt v1Dec.root).isLeaf = false ∧ v1Dec.cur = v1Dec.root ∧
      v1Dec.outLen + 1 ≤ v1Dec.outCap ∧ leafAt v1Dec.node v1Dec.root [true, true] = some 0x62#8 := by
  decide +kernel

/-- A stream whose first part goes through, and one whose first part already faults. -/
theorem witness_BadCharacterIsRejected :
    v1Dec.fault = .none ∧ v1Dec.mode = .dec ∧ (0x0A#8) ≠ 0x30#8 ∧ (0x0A#8) ≠ 0x31#8 ∧
      after (execAll ([0x30#8].map .dec) v1Dec) (fun t => t.fault) = some .none ∧
      after (execAll ([0x32#8].map .dec) v1Dec) (fun t => t.fault) = some .malformed := by decide +kernel

theorem witness_DecoderIgnoresTheTable :
    (Instr.dbeg = .dbeg ∨ (∃ c, Instr.dbeg = .dec c) ∨ Instr.dbeg = .dend) ∧
      ∃ t, exec .dbeg v1Ready = .next t := ⟨.inl rfl, _, rfl⟩

/-- Reset meets the hypotheses, with two bytes of data and with a capacity at which the outputs fit. -/
theorem witness_RoundTripReturnsTheInput :
    idle.atReset ∧ (filterBytes [0x61#8, 0x0A#8, 0x62#8]).length ≤ 4294967295 ∧
      ∃ t, execAll (countSession [0x61#8, 0x0A#8, 0x62#8] ++ tableSession) idle = .next t ∧
        (((filterBytes [0x61#8, 0x0A#8, 0x62#8]).flatMap fun b =>
          codeChars ((Table.get t.code b).getD [])).length = 2) ∧
        2 ≤ idle.outCap ∧ (filterBytes [0x61#8, 0x0A#8, 0x62#8]).length ≤ idle.outCap := by
  refine ⟨⟨rfl, rfl, fun b => Table.get_replicate 0#32 b, rfl, rfl, rfl, rfl, rfl,
    fun b => Table.get_replicate none b, rfl, rfl, rfl, rfl, rfl⟩, by decide, ?_⟩
  obtain ⟨t, h, e⟩ := after_some (r := execAll (countSession [0x61#8, 0x0A#8, 0x62#8] ++ tableSession) idle)
    (f := fun t => ((filterBytes [0x61#8, 0x0A#8, 0x62#8]).flatMap fun b =>
      codeChars ((Table.get t.code b).getD [])).length) (y := 2) (by decide +kernel)
  exact ⟨t, h, e, by decide, by decide⟩

theorem witness_BuildCommandsFrame :
    (idle.fault = .none ∧ v7Built.fault = .none) ∧
      (∃ t, exec .nop idle = .next t ∧ t.fault = .none) ∧
      (∃ t, exec (.cnt 0x61#8) idle = .next t ∧ t.fault = .none) ∧
      (∃ t, exec .bld idle = .next t ∧ t.fault = .none) ∧
      (∃ t, exec .gen v7Built = .next t ∧ t.fault = .none) := by
  refine ⟨⟨rfl, rfl⟩, ?_, ?_, ?_, ?_⟩ <;>
    exact after_some (f := fun t => t.fault) (y := .none) (by decide +kernel)

theorem witness_SessionCommandsFrame :
    ((v7Ready .none).fault = .none ∧ (v7Ready .enc).fault = .none ∧ (v7Ready .dec).fault = .none) ∧
      (∃ t, exec .ebeg (v7Ready .none) = .next t ∧ t.fault = .none) ∧
      (∃ t, exec (.enc 0x61#8) { v7Ready .enc with out := [0x30#8] } = .next t ∧ t.fault = .none) ∧
      (∃ t, exec .eend (v7Ready .enc) = .next t ∧ t.fault = .none) ∧
      (∃ t, exec .dbeg (v7Ready .none) = .next t ∧ t.fault = .none) ∧
      (∃ t, exec (.dec 0x30#8) { v7Ready .dec with out := [0x61#8] } = .next t ∧ t.fault = .none) ∧
      (∃ t, exec .dend { v7Ready .dec with out := [0x61#8] } = .next t ∧ t.fault = .none) ∧
      (0 : Nat) < ({ v7Ready .dec with out := [0x61#8] } : State).outLen := by
  refine ⟨⟨rfl, rfl, rfl⟩, ?_, ?_, ?_, ?_, ?_, ?_, by decide⟩ <;>
    exact after_some (f := fun t => t.fault) (y := .none) (by decide +kernel)

/-- An invariant state whose next step runs GEN. -/
theorem witness_StepKeeps :
    ({ v7Built with host := [.cmd 0x4000#16] } : State).Inv ∧
      ∃ t, step { v7Built with host := [.cmd 0x4000#16] } = .next t ∧ t.phase = .ready :=
  ⟨⟨⟨v7Built_inv.1.1, v7Built_inv.1.2, v7Built_inv.1.3, v7Built_inv.1.4, v7Built_inv.1.5, v7Built_inv.1.6,
      v7Built_inv.1.7, v7Built_inv.1.8, v7Built_inv.1.9, v7Built_inv.1.10, v7Built_inv.1.11⟩,
    v7_tree _ rfl rfl rfl rfl, ⟨v7Built_inv.3.1, v7Built_inv.3.2⟩,
    ⟨v7Built_inv.4.1, v7Built_inv.4.2, v7Built_inv.4.3, v7Built_inv.4.4⟩⟩,
    after_some (f := fun t => t.phase) (y := .ready) (by decide +kernel)⟩

/-- A queue slot, a node, an invalid and a valid code, an output byte, and an unmapped address next to a
window: 0x7FE, just past the last node. -/
theorem witness_ReadPortGivesTheStores :
    (({ v1Built with pq := [4#9] } : State).pq[0]? = some 4#9) ∧
      v1Built.node[4]? = some (innerOf 6#32 0#9 3#9) ∧
      Table.get v1Ready.code 0x64#8 = none ∧ Table.get v1Ready.code 0x62#8 = some [true, true] ∧
      ({ v1Ready with out := [0x30#8] } : State).out[0]? = some 0x30#8 ∧ 0 < v1Ready.outCap ∧
      (0x7FE ≤ (0x7FE#32).toNat ∧ (0x7FE#32).toNat < 0x800) := by decide +kernel

end Sys2Proof.Machine.Tests
end

section
/-! SUPPORT. The reset values and the fields of STATUS (10_state.md R35, R40). -/

namespace Sys2Proof.Machine

/-! What CLR and reset leave -/

theorem State.cleared_atReset (s : State) : s.cleared.atReset where
  phase := rfl
  mode := rfl
  freq := Table.get_replicate 0#32
  nleaf := rfl
  nnode := rfl
  qlen := rfl
  root := rfl
  root_valid := rfl
  code := Table.get_replicate none
  cur := rfl
  out_len := rfl
  fault := rfl
  fault_cmd := rfl
  trunc := rfl

theorem State.cleared_reset : State.reset.cleared = State.reset := rfl

theorem State.reset_atReset : State.reset.atReset :=
  State.cleared_reset ▸ State.reset.cleared_atReset

theorem exec_clr (s : State) : exec .clr s = .next s.cleared := rfl

/-! The fields of STATUS. It is a concatenation, so a field is cut out by passing over the parts above it
and then the parts below it. -/

theorem State.faultO_iff (s : State) : s.faultO = true ↔ s.fault ≠ .none := by
  simp [State.faultO]

theorem State.status_phase (s : State) : s.status.extractLsb' 0 2 = s.phase.bits := by
  rw [State.status]
  iterate 5 rw [BitVec.extractLsb'_append_eq_of_add_le (by decide)]
  exact BitVec.extractLsb'_eq_self

theorem State.status_mode (s : State) : s.status.extractLsb' 2 2 = s.mode.bits := by
  rw [State.status]
  iterate 4 rw [BitVec.extractLsb'_append_eq_of_add_le (by decide)]
  rw [BitVec.extractLsb'_append_eq_of_le (by decide)]
  exact BitVec.extractLsb'_eq_self

theorem State.status_rootValid (s : State) : s.status.getLsbD 4 = s.rootValid := by
  simp only [State.status, BitVec.getLsbD_append]
  simp

theorem State.status_trunc (s : State) : s.status.getLsbD 5 = s.trunc := by
  simp only [State.status, BitVec.getLsbD_append]
  simp

theorem State.status_faulted (s : State) : s.status.getLsbD 6 = s.faultO := by
  simp only [State.status, BitVec.getLsbD_append]
  simp

theorem State.status_high (s : State) : s.status.extractLsb' 7 25 = 0#25 := by
  rw [State.status, BitVec.extractLsb'_append_eq_of_le (by decide)]
  exact BitVec.extractLsb'_eq_self

end Sys2Proof.Machine
end

section
/-! SUPPORT. How many nodes BLD makes and what its queue holds at the end (41_tree_builder.md R123 to R127). -/

namespace Sys2Proof.Machine

/-! Two inductions: over the leaves put in, and over the merges -/

/-- What holds of the empty stores and of each leaf put in holds of the leaves of the counts (R124). -/
theorem addLeaves_induct {P : Builder → Prop} (freq : Table Weight) (h0 : P { node := [], pq := [] })
    (hadd : ∀ b x, P b → x ∈ presentBytes freq → P (b.add (leafNode freq x))) : P (addLeaves freq) :=
  List.foldlRecOn _ _ h0 fun b hb x hx => hadd b x hb hx

/-- One merge on a queue of at least two (R125). -/
theorem mergeLoop_cons_cons (k : Nat) (node : List Node) (a c : Idx) (rest : List Idx) :
    mergeLoop (k + 1) { node := node, pq := a :: c :: rest } =
      mergeLoop k (Builder.add { node := node, pq := rest } (internalNode node a c)) := rfl

/-- What each merge keeps, the merge loop keeps (R125). -/
theorem mergeLoop_induct {P : Builder → Prop}
    (hmerge : ∀ node a c rest, P { node := node, pq := a :: c :: rest } →
      P (Builder.add { node := node, pq := rest } (internalNode node a c)))
    (k : Nat) (b : Builder) (h : P b) : P (mergeLoop k b) := by
  induction k generalizing b with
  | zero => exact h
  | succ k ih =>
    obtain ⟨node, _ | ⟨a, _ | ⟨c, rest⟩⟩⟩ := b
    · exact h
    · exact h
    · exact ih _ (hmerge node a c rest h)

/-! How many nodes there are -/

/-- The leaves stand in the arena in ascending byte order (R124). -/
theorem addLeaves_node (freq : Table Weight) :
    (addLeaves freq).node = (presentBytes freq).map (leafNode freq) := by
  have go : ∀ (xs : List Byte) (b : Builder),
      (xs.foldl (fun b x => b.add (leafNode freq x)) b).node = b.node ++ xs.map (leafNode freq) := by
    intro xs
    induction xs with
    | nil => simp
    | cons x xs ih => simp [ih]
  exact go _ _

theorem addLeaves_node_length (freq : Table Weight) :
    (addLeaves freq).node.length = (presentBytes freq).length := by
  rw [addLeaves_node, List.length_map]

/-- Each leaf is queued (R124). -/
theorem addLeaves_pq_length (freq : Table Weight) :
    (addLeaves freq).pq.length = (presentBytes freq).length := by
  rw [← addLeaves_node_length]
  exact addLeaves_induct (P := fun b => b.pq.length = b.node.length) freq rfl
    fun b x h _ => by simp [Builder.add_pq_length, h]

/-- Enough merges leave one node queued, or none where there was none. -/
theorem mergeLoop_pq_length (k : Nat) (b : Builder) (h : b.pq.length ≤ k + 1) :
    (mergeLoop k b).pq.length = min b.pq.length 1 := by
  induction k generalizing b with
  | zero => simp only [mergeLoop]; omega
  | succ k ih =>
    obtain ⟨node, _ | ⟨a, _ | ⟨c, rest⟩⟩⟩ := b
    · rfl
    · rfl
    · have hk : rest.length + 1 ≤ k + 1 := Nat.le_of_succ_le_succ h
      rw [mergeLoop_cons_cons, ih _ (by rwa [Builder.add_pq_length]), Builder.add_pq_length]
      simp

/-- A merge makes one node and takes one off the queue. -/
theorem mergeLoop_node_add_pq (k : Nat) (b : Builder) :
    (mergeLoop k b).node.length + (mergeLoop k b).pq.length = b.node.length + b.pq.length :=
  mergeLoop_induct (P := fun b' => b'.node.length + b'.pq.length = b.node.length + b.pq.length)
    (fun node a c rest h => by
      simp only [Builder.add_pq_length, Builder.add_node, List.length_append, List.length_cons,
        List.length_nil] at h ⊢
      omega) k b rfl

theorem buildTree_pq_length (freq : Table Weight) :
    (buildTree freq).pq.length = min (presentBytes freq).length 1 := by
  rw [buildTree, mergeLoop_pq_length _ _ (Nat.le_succ _), addLeaves_pq_length]

/-- A tree of n leaves has 2n - 1 nodes (R126). -/
theorem buildTree_node_length (freq : Table Weight) :
    (buildTree freq).node.length = 2 * (presentBytes freq).length - 1 := by
  have hsum := mergeLoop_node_add_pq (addLeaves freq).pq.length (addLeaves freq)
  rw [addLeaves_node_length, addLeaves_pq_length] at hsum
  have hpq := buildTree_pq_length freq
  rw [buildTree, addLeaves_pq_length] at hpq ⊢
  omega

theorem presentBytes_length_le (freq : Table Weight) : (presentBytes freq).length ≤ 256 :=
  (List.length_filter_le _ _).trans (by simp [allBytes, Config.nsym])

/-! Which node is the root -/

/-- A node that is alone in the queue is the last one made. -/
def Builder.LoneIsLast (b : Builder) : Prop :=
  ∀ i, b.pq = [i] → i = BitVec.ofNat 9 (b.node.length - 1)

/-- A node is made and queued at once, so where it is alone in the queue it is the last one made. -/
theorem Builder.loneIsLast_add (b : Builder) (x : Node) : (b.add x).LoneIsLast := by
  intro i hi
  have hmem : BitVec.ofNat 9 b.node.length ∈ (b.add x).pq := Builder.mem_add_pq.2 (.inl rfl)
  rw [hi, List.mem_singleton] at hmem
  simp [← hmem]

theorem buildTree_loneIsLast (freq : Table Weight) : (buildTree freq).LoneIsLast :=
  mergeLoop_induct (fun _ _ _ _ _ => Builder.loneIsLast_add _ _) _ _
    (addLeaves_induct freq (fun _ hi => by cases hi) fun _ _ _ _ => Builder.loneIsLast_add _ _)

/-- The queue BLD ends with: the last node made, or nothing where no byte is counted (R126, R127). -/
theorem buildTree_pq (freq : Table Weight) :
    (buildTree freq).pq =
      if presentBytes freq = [] then [] else [BitVec.ofNat 9 ((buildTree freq).node.length - 1)] := by
  have hlen := buildTree_pq_length freq
  split
  · next h => simpa [h] using hlen
  · next h =>
    have hpos := List.length_pos_iff.2 h
    obtain ⟨i, hi⟩ := List.length_eq_one_iff.1 (hlen.trans (Nat.min_eq_right hpos))
    rw [hi, buildTree_loneIsLast freq i hi]

/-- The end of BLD: the registers it writes, by the count of leaves alone (R123, R126, R127). -/
theorem withTree_buildTree (s : State) (n : Nat) :
    s.withTree n (buildTree s.freq) =
      { s with node := (buildTree s.freq).node, nleaf := BitVec.ofNat 9 n, pq := [],
               root := if presentBytes s.freq = [] then Config.nil
                 else BitVec.ofNat 9 ((buildTree s.freq).node.length - 1),
               rootValid := decide (presentBytes s.freq ≠ []), phase := .built } := by
  rw [State.withTree, buildTree_pq]
  by_cases h : presentBytes s.freq = [] <;> simp [h, pqPop]

end Sys2Proof.Machine
end

section
/-! SUPPORT. The bookkeeping invariant under each thing a step can do (10_state.md R42). -/

namespace Sys2Proof.Machine

variable {s : State}

/-- The host's inputs and their count are none of the block's registers. -/
theorem Bookkeeping.taken (h : Bookkeeping s) (rest : List HostInput) : Bookkeeping (s.taken rest) :=
  { h with }

theorem Bookkeeping.of_cleared (s : State) : Bookkeeping s.cleared where
  newline_uncounted := Table.get_replicate _ _
  queue_empty := rfl
  leaves_bound := by simp
  node_count := rfl
  output_fits := Nat.zero_le _
  root_valid := by simp
  root_index := rfl
  idle_no_leaf _ := rfl
  session_ready h := absurd rfl h
  no_fault_word _ := rfl
  fault_no_output h := absurd rfl h

/-- Fault entry (R191) empties the output and closes the session. -/
theorem Bookkeeping.raise (h : Bookkeeping s) {f : FaultCode} (hf : f ≠ .none) (w : Word) :
    Bookkeeping (s.raise f w) :=
  { h with
    output_fits := Nat.zero_le _
    session_ready := fun hm => absurd rfl hm
    no_fault_word := fun hn => absurd hn hf
    fault_no_output := fun _ => ⟨rfl, rfl⟩ }

theorem Bookkeeping.rejected (h : Bookkeeping s) (w : Word) : Bookkeeping (rejectWord w s) := by
  unfold rejectWord
  split
  · exact h
  · exact h.raise (by decide) w

/-- CNT writes no slot but its own, which is not NEWLINE's (R104). -/
theorem Bookkeeping.withCount (h : Bookkeeping s) {b : Byte} (hb : b ≠ Config.newline) (x : Weight) :
    Bookkeeping { s with freq := Table.put s.freq b x } :=
  { h with newline_uncounted := by rw [Table.get_put_other _ _ hb.symm, h.newline_uncounted] }

/-- A session is open in READY alone (R24). -/
theorem Bookkeeping.mode_of_not_ready (h : Bookkeeping s) (hp : s.phase ≠ .ready) : s.mode = .none :=
  not_imp_comm.1 h.session_ready hp

theorem Bookkeeping.withTree (h : Bookkeeping s) (hp : s.phase = .idle) :
    Bookkeeping (s.withTree (presentBytes s.freq).length (buildTree s.freq)) := by
  have hn : (BitVec.ofNat 9 (presentBytes s.freq).length).toNat = (presentBytes s.freq).length :=
    Nat.mod_eq_of_lt ((presentBytes_length_le s.freq).trans_lt (by decide))
  have hm : s.mode = .none := h.mode_of_not_ready (by simp [hp])
  rw [withTree_buildTree]
  exact { h with
    queue_empty := rfl
    leaves_bound := by rw [hn]; exact presentBytes_length_le _
    node_count := by rw [hn]; exact buildTree_node_length _
    root_valid := by rw [hn, Nat.one_le_iff_ne_zero]; simp
    root_index := by simp [State.nnode]
    idle_no_leaf := nofun
    session_ready := fun hs => absurd hm hs }

/-- GEN writes no register but PHASE, and that past IDLE (R140). -/
theorem Bookkeeping.withCodes (h : Bookkeeping s) (hp : s.phase ≠ .idle) (t : Table (Option Code)) :
    Bookkeeping { s with code := t, phase := .ready } :=
  { h with
    root_valid := by rw [h.root_valid]; simp [hp]
    idle_no_leaf := nofun
    session_ready := fun _ => rfl }

/-- What the commands of a session write: the output within the capacity, the current node, TRUNC, and a MODE
that is open in READY alone. -/
theorem Bookkeeping.withSession (h : Bookkeeping s) (hf : s.fault = .none) {out : List Byte} {m : Mode}
    (ho : out.length ≤ s.outCap) (hm : m ≠ .none → s.phase = .ready) (c : Idx) (tr : Bool) :
    Bookkeeping { s with out := out, cur := c, trunc := tr, mode := m } :=
  { h with
    output_fits := ho
    session_ready := hm
    fault_no_output := fun hn => absurd hf hn }

@[simp] theorem State.emitAll_outLen (s : State) (bs : List Byte) :
    (s.emitAll bs).outLen = s.outLen + bs.length := List.length_append

/-- The bytes DEND emits fit where its test passes (R167). -/
theorem endBytes_fit (h : s.outLen ≤ s.outCap) (hfit : endFits s = true) :
    s.outLen + (endBytes s).length ≤ s.outCap := by
  unfold endFits at hfit
  unfold endBytes
  split at hfit
  · next hl => simpa [hl] using (fits_iff _ _).1 hfit
  · next hl => simpa [hl] using h

/-- Every effect a command can have (R83). -/
theorem Bookkeeping.after_effect {i : Instr} {t : State} (h : Bookkeeping s) (hf : s.fault = .none)
    (he : Effect i s t) : Bookkeeping t := by
  have hout := h.output_fits
  have hready : s.mode ≠ .none → s.phase = .ready := h.session_ready
  cases he with
  | nop => exact h
  | cntFiltered => exact h
  | cnt _ hb => exact h.withCount hb _
  | bld hp => exact h.withTree hp
  | gen hp => exact h.withCodes (by simp [hp]) _
  | ebeg hp => exact h.withSession hf (Nat.zero_le _) (fun _ => hp) _ _
  | encFiltered => exact h
  | enc _ _ _ hfit =>
    exact h.withSession hf ((s.emitAll_outLen _).trans_le (by simpa [codeChars] using hfit)) hready _ _
  | eend => exact h.withSession hf hout (absurd rfl) _ _
  | dbeg hp => exact h.withSession hf (Nat.zero_le _) (fun _ => hp) _ _
  | decEmit _ _ _ _ hfit => exact h.withSession hf ((s.emitAll_outLen [_]).trans_le hfit) hready _ _
  | decMove => exact h.withSession hf hout hready _ _
  | dend _ hfit =>
    exact h.withSession hf ((s.emitAll_outLen _).trans_le (endBytes_fit hout hfit)) (absurd rfl) _ _

theorem Bookkeeping.after_exec {i : Instr} {t : State} (h : Bookkeeping s) (he : exec i s = .next t) :
    Bookkeeping t := by
  obtain ⟨-, rfl⟩ | ⟨-, -, rfl⟩ | ⟨-, -, f, hf, rfl⟩ | ⟨-, hf, he⟩ := exec_next he
  · exact .of_cleared s
  · exact h
  · exact h.raise hf _
  · exact h.after_effect hf he

end Sys2Proof.Machine
end

section
/-! CLAIMS. The reset values (R40), STATUS (R35) and the values that never occur (R42). -/

namespace Sys2Proof.Machine

/-- Settles O7: the reset state is a cleared state, and CLR answers one from any state. -/
theorem resetGivesTheResetValues : Obligations.ResetGivesTheResetValues :=
  ⟨State.reset_atReset, rfl, rfl, rfl, fun s => ⟨s.cleared, exec_clr s, s.cleared_atReset⟩⟩

/-- Settles O57: STATUS read field by field. -/
theorem statusIsTheComposite : Obligations.StatusIsTheComposite := fun s =>
  ⟨s.status_phase, s.status_mode, s.status_rootValid, s.status_trunc,
    by rw [s.status_faulted, s.faultO_iff], s.status_high⟩

/-- Settles O53: each of the four things a step can be keeps the bookkeeping. -/
theorem stepKeepsTheBookkeeping : Obligations.StepKeepsTheBookkeeping := by
  intro s t h hs
  obtain ⟨-, rfl⟩ | ⟨rest, -, rfl⟩ | ⟨w, rest, -, -, -, rfl⟩ | ⟨w, rest, i, -, -, he⟩ := step_next hs
  · exact h
  · exact .of_cleared _
  · exact (h.taken rest).rejected w
  · exact (h.taken rest).after_exec he

end Sys2Proof.Machine
end

section
/-! SUPPORT. The decoder as the inverse of the encoder (30_encoding.md R87), and what a row of the opcode map
and a reserved opcode say of a word's fields (R83, R84). -/

namespace Sys2Proof

variable {w : Word} {i : Instr}

/-! The decoder -/

theorem formatB_eq_some {op : BitVec 4} {opd : Byte} (h : formatB op opd = some i) :
    op = i.opcode ∧ opd = i.operand := by
  unfold formatB at h
  split_ifs at h with hop hop hop <;> cases h <;> exact ⟨hop, rfl⟩

theorem formatZ_eq_some {op : BitVec 4} (h : formatZ op = some i) : op = i.opcode ∧ i.operand = 0#8 := by
  unfold formatZ at h
  split_ifs at h with hop hop hop hop hop hop hop hop <;> cases h <;> exact ⟨hop, rfl⟩

/-- A word that decodes is the encoding of its command (R87). -/
theorem encode_of_decode_eq_instr (h : decode w = .instr i) : encode i = w := by
  unfold decode at h
  split at h
  · cases h
  · next hrsv =>
    have hrsv : rsvField w = 0#4 := not_not.1 hrsv
    split at h
    · next j hB =>
      cases h
      obtain ⟨hop, hopd⟩ := formatB_eq_some hB
      exact encode_eq_of_fields hop hrsv hopd
    · split at h
      · cases h
      · next j hZ =>
        split at h
        · cases h
        · next hopd =>
          cases h
          obtain ⟨hop, hzero⟩ := formatZ_eq_some hZ
          exact encode_eq_of_fields hop hrsv ((not_not.1 hopd).trans hzero.symm)

/-- Every command's encoding decodes to it (R87). -/
theorem decode_encode (i : Instr) : decode (encode i) = .instr i := by
  rw [decode, rsvField_encode, opField_encode, opdField_encode]
  cases i <;> rfl

theorem decode_eq_instr_iff : decode w = .instr i ↔ encode i = w :=
  ⟨encode_of_decode_eq_instr, fun h => h ▸ decode_encode i⟩

/-- No command has an opcode above 0xA (R83). -/
theorem Instr.opcode_le (i : Instr) : i.opcode ≤ 0xA#4 := by
  cases i <;> simp [Instr.opcode]

/-- A word with an opcode above 0xA decodes to no command (R84). -/
theorem decode_ne_instr_of_reserved (h : opField w > 0xA#4) (i : Instr) : decode w ≠ .instr i := by
  intro hd
  rw [← encode_of_decode_eq_instr hd, opField_encode] at h
  exact absurd i.opcode_le (BitVec.not_le.2 h)

/-! The opcode map -/

/-- The mask of format Z compares the whole word. -/
theorem encode_of_maskZ (h : w &&& 0xFFFF#16 = encode i) : encode i = w := by
  rw [← h]
  exact BitVec.and_allOnes

/-- The mask of format B keeps the opcode and the reserved bits. -/
theorem opField_and_maskB (w : Word) : opField (w &&& 0xFF00#16) = opField w := by
  rw [opField, BitVec.extractLsb'_and]
  exact BitVec.and_allOnes

theorem rsvField_and_maskB (w : Word) : rsvField (w &&& 0xFF00#16) = rsvField w := by
  rw [rsvField, BitVec.extractLsb'_and]
  exact BitVec.and_allOnes

/-- The mask of format B leaves the operand free. -/
theorem encode_of_maskB {m : Word} (h : w &&& 0xFF00#16 = m) (hop : opField m = i.opcode)
    (hrsv : rsvField m = 0#4) (hopd : opdField w = i.operand) : encode i = w := by
  subst h
  exact encode_eq_of_fields (opField_and_maskB w ▸ hop) (rsvField_and_maskB w ▸ hrsv) hopd

/-- The command of a row's mnemonic whose word is the one selected (R83). -/
theorem exists_encode_of_mask : ∀ r ∈ opcodeMap, w &&& r.maskBits = r.matchBits →
    ∃ i, encode i = w ∧ i.mnemonic = r.mnemonic := by
  simp only [opcodeMap, List.forall_mem_cons]
  exact ⟨
    fun h => ⟨.nop, encode_of_maskZ h, rfl⟩,
    fun h => ⟨.clr, encode_of_maskZ h, rfl⟩,
    fun h => ⟨.cnt (opdField w), encode_of_maskB h rfl rfl rfl, rfl⟩,
    fun h => ⟨.bld, encode_of_maskZ h, rfl⟩,
    fun h => ⟨.gen, encode_of_maskZ h, rfl⟩,
    fun h => ⟨.ebeg, encode_of_maskZ h, rfl⟩,
    fun h => ⟨.enc (opdField w), encode_of_maskB h rfl rfl rfl, rfl⟩,
    fun h => ⟨.eend, encode_of_maskZ h, rfl⟩,
    fun h => ⟨.dbeg, encode_of_maskZ h, rfl⟩,
    fun h => ⟨.dec (opdField w), encode_of_maskB h rfl rfl rfl, rfl⟩,
    fun h => ⟨.dend, encode_of_maskZ h, rfl⟩,
    nofun⟩

/-- Every command's word is selected by the row of its mnemonic alone (R83). -/
theorem Laws.Words.statement (i : Instr) : Laws.Words.Statement i := by
  cases i with
  | nop => exact nop
  | clr => exact clr
  | cnt b => exact cnt b
  | bld => exact bld
  | gen => exact gen
  | ebeg => exact ebeg
  | enc b => exact enc b
  | eend => exact eend
  | dbeg => exact dbeg
  | dec c => exact dec c
  | dend => exact dend

/-- A row of the opcode map selects exactly the words that decode to a command of its mnemonic (R83). -/
theorem mask_eq_match_iff {r : OpcodeRow} (hr : r ∈ opcodeMap) :
    w &&& r.maskBits = r.matchBits ↔ ∃ i, decode w = .instr i ∧ i.mnemonic = r.mnemonic := by
  simp only [decode_eq_instr_iff]
  refine ⟨exists_encode_of_mask r hr, ?_⟩
  rintro ⟨i, rfl, hm⟩
  exact beq_iff_eq.1 ((Laws.Words.statement i r hr).2 hm.symm)

end Sys2Proof

namespace Sys2Proof.Machine

/-- A word that is no command raises ILLEGAL_CMD where no fault is recorded (R84, R189). -/
theorem issue_of_no_command {w : Word} {s : State} (hw : ∀ i, decode w ≠ .instr i) (hf : s.fault = .none) :
    issue w s = .next (s.raise .illegalCmd w) := by
  unfold issue
  split
  · next i hd => exact absurd hd (hw i)
  · rw [rejectWord, if_neg (mt (faulted_iff s).1 (not_not.2 hf))]

end Sys2Proof.Machine
end

section
/-! CLAIMS. The opcode map (R83). -/

namespace Sys2Proof.Machine

/-- Settles O4: a row selects the words of its mnemonic's commands, so it selects no word that is no command. -/
theorem opcodeMapSelectsTheCommand : Obligations.OpcodeMapSelectsTheCommand := by
  refine ⟨fun r hr w => mask_eq_match_iff hr, fun w s hop => ?_⟩
  have hw := decode_ne_instr_of_reserved (w := w) hop
  refine ⟨fun r hr hsel => ?_, issue_of_no_command hw⟩
  obtain ⟨i, hd, -⟩ := (mask_eq_match_iff hr).1 hsel
  exact hw i hd

end Sys2Proof.Machine
end

section
/-! SUPPORT. NOP, CLR and CNT case by case, and a word that is not CLR while a fault is recorded
(40_control_and_frequency.md R100 to R104). -/

namespace Sys2Proof.Machine

variable {s : State} {b : Byte}

/-- NOP answers the same state, faulted or not (R102). -/
theorem exec_nop_eq (s : State) : exec .nop s = .next s := by
  by_cases hf : s.fault = .none
  · exact (exec_nop s).trans (dispatch_admitted hf rfl)
  · exact exec_faulted hf (by decide)

theorem State.cleared_cleared (s : State) : s.cleared.cleared = s.cleared := rfl

/-- CLR is the one word 0x1000 (R103). -/
theorem decode_eq_clr_iff {w : Word} : decode w = .instr .clr ↔ w = 0x1000#16 :=
  decode_eq_instr_iff.trans eq_comm

/-- While a fault is recorded every word but CLR's is ignored, legal or not (R192). -/
theorem issue_faulted {w : Word} (hf : s.fault ≠ .none) (hw : w ≠ 0x1000#16) : issue w s = .next s := by
  unfold issue
  split
  · next i hd => exact exec_faulted hf fun hi => hw (decode_eq_clr_iff.1 (hi ▸ hd))
  · rw [rejectWord, if_pos ((faulted_iff s).2 hf)]

/-- The word of CNT is its opcode above its byte (R83). -/
theorem encode_cnt (b : Byte) : encode (.cnt b) = 0x2000#16 ||| b.setWidth 16 := by
  apply BitVec.eq_of_toNat_eq
  have hb : b.toNat < 2 ^ 13 := b.isLt.trans (by decide)
  have hor : 2 ^ 13 * 1 + b.toNat = 2 ^ 13 * 1 ||| b.toNat := Nat.two_pow_add_eq_or_of_lt hb 1
  rw [encode_toNat, BitVec.toNat_or, BitVec.toNat_setWidth_of_le (by decide)]
  exact hor

theorem exec_cnt_idle (hf : s.fault = .none) (hp : s.phase = .idle) (b : Byte) :
    exec (.cnt b) s = countByte b s :=
  (exec_cnt s b).trans (dispatch_admitted hf (beq_iff_eq.2 hp))

theorem exec_cnt_not_idle (hf : s.fault = .none) (hp : s.phase ≠ .idle) (b : Byte) :
    exec (.cnt b) s = .next (s.raise .illegalCmd (encode (.cnt b))) :=
  exec_not_admitted hf (beq_eq_false_iff_ne.2 hp)

/-! The body of CNT (R104): the filter, the overflow test, the count -/

theorem countByte_newline (s : State) : countByte Config.newline s = .next s := rfl

theorem countByte_full (hb : b ≠ Config.newline) (hw : (Table.get s.freq b).toNat = Config.wmax) :
    countByte b s = .next (s.raise .resource (encode (.cnt b))) := by
  rw [countByte, if_neg (mt (isFiltered_iff b).1 hb), if_pos hw]

theorem countByte_counts (hb : b ≠ Config.newline) (hw : (Table.get s.freq b).toNat ≠ Config.wmax) :
    countByte b s = .next { s with freq := Table.put s.freq b (Table.get s.freq b + 1#32) } := by
  rw [countByte, if_neg (mt (isFiltered_iff b).1 hb), if_neg hw]

/-- A count that is not full does not wrap when it goes up. -/
theorem toNat_count_add_one {x : Weight} (hw : x.toNat ≠ Config.wmax) : (x + 1#32).toNat = x.toNat + 1 := by
  have := x.isLt
  unfold Config.wmax at hw
  exact BitVec.toNat_add_of_lt (by simp; omega)

end Sys2Proof.Machine
end

section
/-! SUPPORT. ILLEGAL_CMD is raised by the dispatch alone (60_exceptions.md R189), and the only changes of PHASE and
MODE (40_control_and_frequency.md R101). -/

namespace Sys2Proof.Machine

variable {i : Instr} {s t : State}

/-! The faults of the bodies -/

/-- The faults a command's body can raise where the command is admitted (R186 to R188). -/
def bodyFaults : Instr → List FaultCode
  | .cnt _ | .bld | .dend => [.resource]
  | .enc _ => [.noSymbol, .resource]
  | .dec _ => [.malformed, .resource]
  | .nop | .clr | .gen | .ebeg | .eend | .dbeg => []

theorem illegalCmd_notMem_bodyFaults (i : Instr) : .illegalCmd ∉ bodyFaults i := by
  cases i <;> simp [bodyFaults]

theorem countByte_fault {b : Byte} (h : countByte b s = .next t) :
    t.fault = s.fault ∨ t.fault ∈ bodyFaults (.cnt b) := by
  unfold countByte at h
  split_ifs at h <;> cases h <;> simp [bodyFaults]

theorem buildBody_fault (h : buildBody s = .next t) : t.fault = s.fault ∨ t.fault ∈ bodyFaults .bld := by
  unfold buildBody at h
  rw [withTree_buildTree] at h
  split_ifs at h <;> cases h <;> simp [bodyFaults]

theorem generateBody_fault (h : generateBody s = .next t) : t.fault = s.fault := by
  unfold generateBody at h
  split at h <;> cases h
  rfl

theorem encodeByte_fault {b : Byte} (h : encodeByte b s = .next t) :
    t.fault = s.fault ∨ t.fault ∈ bodyFaults (.enc b) := by
  unfold encodeByte at h
  split at h
  · cases h; exact .inl rfl
  · split at h
    · cases h; simp [bodyFaults]
    · split_ifs at h <;> cases h <;> simp [bodyFaults]

theorem walkEdge_fault {w : Word} {d : Bool} (h : walkEdge w d s = .next t) :
    t.fault = s.fault ∨ t.fault = .resource := by
  unfold walkEdge at h
  dsimp only at h
  split_ifs at h <;> cases h <;> simp

theorem decodeChar_fault {c : Byte} (h : decodeChar c s = .next t) :
    t.fault = s.fault ∨ t.fault ∈ bodyFaults (.dec c) := by
  unfold decodeChar at h
  split at h
  · cases h; simp [bodyFaults]
  · split_ifs at h
    · cases h; simp [bodyFaults]
    · cases h; simp [bodyFaults]
    · exact (walkEdge_fault h).imp_right fun hr => by simp [bodyFaults, hr]

theorem endDecode_fault (h : endDecode s = .next t) : t.fault = s.fault ∨ t.fault ∈ bodyFaults .dend := by
  unfold endDecode at h
  split_ifs at h <;> cases h <;> simp [bodyFaults]

/-- An admitted command ends with no fault or with one its body raises. -/
theorem exec_admitted_fault (hf : s.fault = .none) (ha : admitted i s = true) (h : exec i s = .next t) :
    t.fault = .none ∨ t.fault ∈ bodyFaults i := by
  have answer {body : State → Result} (he : exec i s = dispatch i body s) : body s = .next t := by
    rw [← h, he, dispatch_admitted hf ha]
  rw [← hf]
  cases i with
  | nop => cases answer (exec_nop s); exact .inl rfl
  | clr => cases h; exact .inl hf.symm
  | cnt b => exact countByte_fault (answer (exec_cnt s b))
  | bld => exact buildBody_fault (answer (exec_bld s))
  | gen => exact .inl (generateBody_fault (answer (exec_gen s)))
  | ebeg => cases answer (exec_ebeg s); exact .inl rfl
  | enc b => exact encodeByte_fault (answer (exec_enc s b))
  | eend => cases answer (exec_eend s); exact .inl rfl
  | dbeg => cases answer (exec_dbeg s); exact .inl rfl
  | dec c => exact decodeChar_fault (answer (exec_dec s c))
  | dend => exact endDecode_fault (answer (exec_dend s))

/-- ILLEGAL_CMD is raised exactly where the table of R101 does not admit the command. -/
theorem exec_eq_illegalCmd_iff (hf : s.fault = .none) (i : Instr) :
    exec i s = .next (s.raise .illegalCmd (encode i)) ↔ admitted i s = false := by
  refine ⟨fun h => ?_, exec_not_admitted hf⟩
  by_contra ha
  obtain hn | hm := exec_admitted_fault hf (eq_true_of_ne_false ha) h
  · cases hn
  · exact illegalCmd_notMem_bodyFaults i hm

/-! The changes of PHASE and MODE -/

@[simp] theorem State.withTree_phase (s : State) (n : Nat) (b : Builder) : (s.withTree n b).phase = .built := by
  unfold State.withTree
  split <;> rfl

@[simp] theorem State.withTree_mode (s : State) (n : Nat) (b : Builder) : (s.withTree n b).mode = s.mode := by
  unfold State.withTree
  split <;> rfl

theorem Effect.phase_change (h : Effect i s t) (hne : t.phase ≠ s.phase) :
    (i = .bld ∧ s.phase = .idle ∧ t.phase = .built) ∨ (i = .gen ∧ s.phase = .built ∧ t.phase = .ready) := by
  cases h with
  | bld hp => exact .inl ⟨rfl, hp, s.withTree_phase _ _⟩
  | gen hp => exact .inr ⟨rfl, hp, rfl⟩
  | _ => exact absurd rfl hne

theorem Effect.mode_change (h : Effect i s t) (hne : t.mode ≠ s.mode) :
    (i = .ebeg ∧ s.mode = .none ∧ t.mode = .enc) ∨ (i = .eend ∧ s.mode = .enc ∧ t.mode = .none) ∨
      (i = .dbeg ∧ s.mode = .none ∧ t.mode = .dec) ∨ (i = .dend ∧ s.mode = .dec ∧ t.mode = .none) := by
  cases h with
  | ebeg _ hm => exact .inl ⟨rfl, hm, rfl⟩
  | eend hm => exact .inr (.inl ⟨rfl, hm, rfl⟩)
  | dbeg _ hm => exact .inr (.inr (.inl ⟨rfl, hm, rfl⟩))
  | dend hm => exact .inr (.inr (.inr ⟨rfl, hm, rfl⟩))
  | bld => exact absurd (s.withTree_mode _ _) hne
  | _ => exact absurd rfl hne

/-- PHASE changes by BLD, GEN and CLR alone (R101). -/
theorem exec_phase_change (h : exec i s = .next t) (hne : t.phase ≠ s.phase) :
    (i = .bld ∧ s.phase = .idle ∧ t.phase = .built) ∨ (i = .gen ∧ s.phase = .built ∧ t.phase = .ready) ∨
      (i = .clr ∧ t.phase = .idle) := by
  obtain ⟨hi, rfl⟩ | ⟨-, -, rfl⟩ | ⟨-, -, f, -, rfl⟩ | ⟨-, -, he⟩ := exec_next h
  · exact .inr (.inr ⟨hi, rfl⟩)
  · exact absurd rfl hne
  · exact absurd rfl hne
  · exact (he.phase_change hne).imp_right .inl

/-- MODE changes by the four session commands, fault entry and CLR alone (R101). -/
theorem exec_mode_change (h : exec i s = .next t) (hne : t.mode ≠ s.mode) :
    (i = .ebeg ∧ s.mode = .none ∧ t.mode = .enc) ∨ (i = .eend ∧ s.mode = .enc ∧ t.mode = .none) ∨
      (i = .dbeg ∧ s.mode = .none ∧ t.mode = .dec) ∨ (i = .dend ∧ s.mode = .dec ∧ t.mode = .none) ∨
      (t.fault ≠ .none ∧ t.mode = .none) ∨ (i = .clr ∧ t.mode = .none) := by
  obtain ⟨hi, rfl⟩ | ⟨-, -, rfl⟩ | ⟨-, -, f, hf, rfl⟩ | ⟨-, -, he⟩ := exec_next h
  · simp [hi]
  · exact absurd rfl hne
  · simp [hf]
  · obtain h | h | h | h := he.mode_change hne <;> simp [h]

end Sys2Proof.Machine
end

section
/-! CLAIMS. NOP, CLR, CNT and the admission table (40_control_and_frequency.md R101 to R104). -/

namespace Sys2Proof.Machine

/-- Settles O11: ignored while faulted, and the empty body otherwise. -/
theorem nopChangesNothing : Obligations.NopChangesNothing := ⟨rfl, exec_nop_eq⟩

/-- Settles O12: CLR answers the cleared state from any state, and 0x1001 is not its word. -/
theorem clrResetsEverything : Obligations.ClrResetsEverything :=
  ⟨fun _ => decode_eq_clr_iff, rfl, fun s =>
    ⟨⟨s.cleared, exec_clr s, s.cleared_atReset, exec_clr s.cleared⟩, fun hf => issue_faulted hf (by decide)⟩⟩

/-- Settles O13: the dispatch of R100, then the three cases of the body in the order of R104. -/
theorem cntCountsOneByte : Obligations.CntCountsOneByte := by
  intro s b
  refine ⟨encode_cnt b, fun hf => exec_faulted hf nofun, fun hf hp => exec_cnt_not_idle hf hp b, ?_, ?_, ?_⟩
  · rintro hf hp rfl
    exact (exec_cnt_idle hf hp _).trans (countByte_newline s)
  · intro hf hp hb hw
    exact (exec_cnt_idle hf hp b).trans (countByte_full hb hw)
  · intro hf hp hb hw
    exact ⟨_, (exec_cnt_idle hf hp b).trans (countByte_counts hb hw), rfl,
      (congrArg BitVec.toNat (Table.get_put_same ..)).trans (toNat_count_add_one hw),
      fun c hc => Table.get_put_other _ _ hc⟩

/-- Settles O15: a command is refused exactly where the table does not admit it, and `exec_next` lists every other
change of PHASE and MODE. -/
theorem admissionTableIsTheControlFlow : Obligations.AdmissionTableIsTheControlFlow := by
  refine ⟨fun s hf => ?_, fun _ _ _ => exec_phase_change, fun _ _ _ => exec_mode_change⟩
  simp [exec_eq_illegalCmd_iff hf, admitted]

end Sys2Proof.Machine
end

section
/-! SUPPORT. The ordered insert, and one merge of the loop (41_tree_builder.md R121, R125). -/

namespace Sys2Proof.Machine

/-- Where `pq_insert` puts a node (R121): every node before the place weighs at most as much, and the node at
it, if any, strictly more. -/
theorem pqInsert_place (wt : Idx → Weight) (n : Idx) (q : List Idx) :
    ∃ p, p ≤ q.length ∧ pqInsert wt n q = q.take p ++ n :: q.drop p ∧
      (∀ k m, k < p → q[k]? = some m → (wt m).toNat ≤ (wt n).toNat) ∧
      (∀ m, q[p]? = some m → (wt n).toNat < (wt m).toNat) := by
  induction q with
  | nil => exact ⟨0, le_rfl, rfl, nofun, nofun⟩
  | cons m rest ih =>
    rw [pqInsert]
    split
    · next hlt => exact ⟨0, Nat.zero_le _, rfl, nofun, fun _ hm => by cases hm; exact hlt⟩
    · next hle =>
      obtain ⟨p, hp, heq, hbefore, hat⟩ := ih
      refine ⟨p + 1, Nat.succ_le_succ hp, by rw [heq]; rfl, fun k m' hk hm' => ?_, fun m' hm' => hat m' hm'⟩
      cases k with
      | zero => cases hm'; exact BitVec.not_lt.1 hle
      | succ k => exact hbefore k m' (Nat.lt_of_succ_lt_succ hk) hm'

/-- The loop is over when at most one node is queued (R125). -/
theorem mergeLoop_of_length_le_one (k : Nat) (b : Builder) (h : b.pq.length ≤ 1) : mergeLoop k b = b := by
  obtain ⟨node, _ | ⟨a, _ | ⟨c, rest⟩⟩⟩ := b
  · cases k <;> rfl
  · cases k <;> rfl
  · simp at h

/-- Enough merges make one node for each queued node but one (R125). -/
theorem mergeLoop_node_length {k : Nat} {b : Builder} (hk : b.pq.length ≤ k + 1) :
    (mergeLoop k b).node.length = b.node.length + (b.pq.length - 1) := by
  have hsum := mergeLoop_node_add_pq k b
  rw [mergeLoop_pq_length k b hk] at hsum
  omega

end Sys2Proof.Machine
end

section
/-! CLAIMS. The ordered insert and the merge (41_tree_builder.md R121, R125). -/

namespace Sys2Proof.Machine

/-- Settles O23: the place of the insert by induction on the queue; the leaves are at most as many as the byte
values. -/
theorem insertIsStableAndOrdered : Obligations.InsertIsStableAndOrdered :=
  ⟨pqInsert_place,
    fun freq => (addLeaves_pq_length freq).trans_le (presentBytes_length_le freq),
    fun _ _ _ _ => ⟨rfl, congrArg (· + 1) (pqInsert_length _ _ _), fun _ => rfl⟩⟩

/-- Settles O25: one merge is the loop's own equation, and a merge makes one node and takes one off the queue. -/
theorem mergeTakesTheFrontTwo : Obligations.MergeTakesTheFrontTwo := by
  refine ⟨fun k node a c rest => ⟨internalNode node a c, rfl, rfl, rfl, rfl, mergeLoop_cons_cons k node a c rest⟩,
    mergeLoop_of_length_le_one, fun k b hpos hk => ⟨?_, mergeLoop_node_length hk⟩, fun freq hne => ?_⟩
  · rw [mergeLoop_pq_length k b hk, Nat.min_eq_right hpos]
  · have hpos := List.length_pos_iff.2 hne
    rw [buildTree_pq_length, buildTree_node_length]
    omega

end Sys2Proof.Machine
end

section
/-! SUPPORT. Sequences of commands, BLD and GEN where they run, the bytes present and their total, and BLD with no
byte and with one byte counted (41_tree_builder.md R123, R127, R128). -/

namespace Sys2Proof.Machine

variable {s t : State} {freq : Table Weight}

/-! The bytes present and their total -/

theorem mem_presentBytes {b : Byte} : b ∈ presentBytes freq ↔ Table.get freq b ≠ 0#32 := by
  simp [presentBytes, mem_allBytes]

/-- Every byte value stands once in `for b in 0..255`, in ascending order (R10). -/
theorem allBytes_sorted : allBytes.Pairwise (· < ·) := by
  rw [allBytes, List.pairwise_map]
  refine List.pairwise_lt_range.imp_of_mem fun {i j} hi hj hlt => ?_
  rw [List.mem_range, Config.nsym] at hi hj
  rw [BitVec.lt_def, BitVec.toNat_ofNat, BitVec.toNat_ofNat, Nat.mod_eq_of_lt hi, Nat.mod_eq_of_lt hj]
  exact hlt

theorem presentBytes_sorted (freq : Table Weight) : (presentBytes freq).Pairwise (· < ·) :=
  allBytes_sorted.filter _

theorem presentBytes_nodup (freq : Table Weight) : (presentBytes freq).Nodup :=
  (presentBytes_sorted freq).imp BitVec.ne_of_lt

/-- Only the bytes present add to the total (R129). -/
theorem totalCount_eq_presentBytes (freq : Table Weight) :
    totalCount freq = ((presentBytes freq).map fun b => (Table.get freq b).toNat).sum := by
  rw [totalCount, presentBytes]
  induction allBytes with
  | nil => rfl
  | cons b bs ih =>
    by_cases hb : Table.get freq b = 0#32 <;> simp [hb, ih]

theorem presentBytes_eq_nil (h : ∀ b, Table.get freq b = 0#32) : presentBytes freq = [] :=
  List.eq_nil_iff_forall_not_mem.2 fun b hb => mem_presentBytes.1 hb (h b)

theorem presentBytes_eq_singleton {x : Byte} (hx : Table.get freq x ≠ 0#32)
    (h : ∀ b, b ≠ x → Table.get freq b = 0#32) : presentBytes freq = [x] := by
  refine List.perm_singleton.1 ((List.perm_ext_iff_of_nodup (presentBytes_nodup freq) (List.nodup_singleton x)).2 ?_)
  intro b
  rw [mem_presentBytes, List.mem_singleton]
  exact ⟨not_imp_comm.1 (h b), fun hb => hb ▸ hx⟩

/-! Commands where they run -/

theorem execAll_cons {i : Instr} (h : exec i s = .next t) (is : List Instr) :
    execAll (i :: is) s = execAll is t := by
  rw [execAll, h]

/-- BLD in IDLE, its total within WMAX (R123). -/
theorem exec_bld_builds (hf : s.fault = .none) (hp : s.phase = .idle) (ht : totalCount s.freq ≤ Config.wmax) :
    exec .bld s = .next (s.withTree (presentBytes s.freq).length (buildTree s.freq)) := by
  rw [exec_bld, dispatch_admitted hf (by simp [admitted, hp]), buildBody, if_neg (Nat.not_lt.2 ht)]

/-- GEN in BUILT (R140). -/
theorem exec_gen_generates {c : Table (Option Code)} (hf : s.fault = .none) (hp : s.phase = .built)
    (hg : generate s = some c) : exec .gen s = .next { s with code := c, phase := .ready } := by
  rw [exec_gen, dispatch_admitted hf (by simp [admitted, hp]), generateBody, hg]

/-- BLD and then GEN. -/
theorem execAll_tableSession {c : Table (Option Code)} (hb : exec .bld s = .next t) (hf : t.fault = .none)
    (hp : t.phase = .built) (hg : generate t = some c) :
    execAll tableSession s = .next { t with code := c, phase := .ready } :=
  (execAll_cons hb _).trans (execAll_cons (exec_gen_generates hf hp hg) _)

theorem exec_ebeg_opens (hf : s.fault = .none) (hp : s.phase = .ready) (hm : s.mode = .none) :
    exec .ebeg s = .next { s with out := [], mode := .enc } :=
  (exec_ebeg s).trans (dispatch_admitted hf (by simp [admitted, hp, hm]))

theorem exec_eend_closes (hf : s.fault = .none) (hm : s.mode = .enc) :
    exec .eend s = .next { s with mode := .none } :=
  (exec_eend s).trans (dispatch_admitted hf (by simp [admitted, hm]))

theorem exec_dbeg_opens (hf : s.fault = .none) (hp : s.phase = .ready) (hm : s.mode = .none) :
    exec .dbeg s = .next { s with out := [], cur := s.root, trunc := false, mode := .dec } :=
  (exec_dbeg s).trans (dispatch_admitted hf (by simp [admitted, hp, hm]))

theorem exec_dend_runs (hf : s.fault = .none) (hm : s.mode = .dec) : exec .dend s = endDecode s :=
  (exec_dend s).trans (dispatch_admitted hf (by simp [admitted, hm]))

/-! No byte counted (R127) -/

/-- With at most one leaf no merge is made. -/
theorem buildTree_node_of_length_le_one (h : (presentBytes freq).length ≤ 1) :
    (buildTree freq).node = (presentBytes freq).map (leafNode freq) := by
  rw [buildTree, mergeLoop_of_length_le_one _ _ (by rwa [addLeaves_pq_length]), addLeaves_node]

theorem exec_bld_empty (hf : s.fault = .none) (hp : s.phase = .idle) (h : ∀ b, Table.get s.freq b = 0#32) :
    exec .bld s = .next { s with node := [], nleaf := 0#9, pq := [], root := Config.nil, rootValid := false,
                                 phase := .built } := by
  have hnil := presentBytes_eq_nil h
  have hnode := buildTree_node_of_length_le_one (freq := s.freq) (by simp [hnil])
  rw [exec_bld_builds hf hp (by simp [totalCount_eq_presentBytes, hnil]), withTree_buildTree, hnode, hnil]
  rfl

theorem generate_of_no_tree (hv : s.rootValid = false) : generate s = some emptyCodes := by
  simp [generate, hv]

theorem endDecode_of_no_tree (hv : s.rootValid = false) :
    endDecode s = .next { s with trunc := false, mode := .none } := by
  simp [endDecode, endFits, endBytes, singleLeaf, truncAtEnd, State.emitAll, hv]

/-- An encode session with no ENC leaves the output empty (R150, R152). -/
theorem execAll_encodeSession_nil (hf : s.fault = .none) (hp : s.phase = .ready) (hm : s.mode = .none) :
    execAll (encodeSession []) s = .next { s with out := [], mode := .none } :=
  (execAll_cons (exec_ebeg_opens hf hp hm) _).trans
    (execAll_cons (exec_eend_closes (s := { s with out := [], mode := .enc }) hf rfl) _)

/-- A decode session with no DEC and no tree leaves the output empty and TRUNC 0 (R165, R171). -/
theorem execAll_decodeSession_nil (hf : s.fault = .none) (hp : s.phase = .ready) (hm : s.mode = .none)
    (hv : s.rootValid = false) :
    execAll (decodeSession []) s =
      .next { s with out := [], cur := s.root, trunc := false, mode := .none } :=
  (execAll_cons (exec_dbeg_opens hf hp hm) _).trans
    (execAll_cons ((exec_dend_runs (s := { s with out := [], cur := s.root, trunc := false, mode := .dec })
      hf rfl).trans (endDecode_of_no_tree hv)) _)

/-! One byte counted (R128) -/

theorem exec_bld_single {x : Byte} (hf : s.fault = .none) (hp : s.phase = .idle)
    (hx : Table.get s.freq x ≠ 0#32) (h : ∀ b, b ≠ x → Table.get s.freq b = 0#32) :
    exec .bld s = .next { s with node := [leafNode s.freq x], nleaf := 1#9, pq := [], root := 0#9,
                                 rootValid := true, phase := .built } := by
  have hsingle := presentBytes_eq_singleton hx h
  have hnode := buildTree_node_of_length_le_one (freq := s.freq) (by simp [hsingle])
  have htotal : totalCount s.freq ≤ Config.wmax := by
    simpa [totalCount_eq_presentBytes, hsingle, Config.wmax] using Nat.le_pred_of_lt (Table.get s.freq x).isLt
  rw [exec_bld_builds hf hp htotal, withTree_buildTree, hnode, hsingle]
  rfl

/-- A root that is a leaf gets the empty code (R142). -/
theorem generate_of_leaf_root (hv : s.rootValid = true) (hl : (s.nodeAt s.root).isLeaf = true) :
    generate s = some (Table.put emptyCodes (s.nodeAt s.root).sym (some [])) := by
  simp [generate, hv, hl]

end Sys2Proof.Machine
end

section
/-! CLAIMS. BLD with no byte and with one byte counted (41_tree_builder.md R127, R128). -/

namespace Sys2Proof.Machine

/-- Settles O28: without a leaf there is nothing to merge, to code, to encode or to decode. -/
theorem emptyInputHasNoTree : Obligations.EmptyInputHasNoTree := by
  intro s hf hp hm hzero
  have hbld := exec_bld_empty hf hp hzero
  exact ⟨hbld, _, execAll_tableSession hbld hf rfl (generate_of_no_tree rfl), hf, rfl, Table.get_replicate none,
    ⟨_, execAll_encodeSession_nil hf rfl hm, rfl, hf⟩, _, execAll_decodeSession_nil hf rfl hm rfl, rfl, hf, rfl⟩

/-- Settles O29: the one leaf is the root, and GEN stores the empty code for its byte. -/
theorem oneByteGivesTheSingleLeaf : Obligations.OneByteGivesTheSingleLeaf := by
  intro s x hf hp hx hzero
  have hbld := exec_bld_single hf hp hx hzero
  refine ⟨hbld, _, execAll_tableSession hbld hf rfl (generate_of_leaf_root rfl rfl), hf, rfl, fun b => ?_⟩
  exact (Table.get_put _ x b _).trans (by rw [emptyCodes, Table.get_replicate])

end Sys2Proof.Machine
end

section
/-! SUPPORT. A run that ends with no fault, command by command, and the counts as a function of the bytes counted
(40_control_and_frequency.md R104; 41_tree_builder.md R131). -/

namespace Sys2Proof.Machine

variable {i : Instr} {s t u v : State}

/-! A run that ends with no fault -/

/-- A command other than CLR that leaves no fault had its effect (R192, R193). -/
theorem exec_effect (hi : i ≠ .clr) (h : exec i s = .next t) (hf : t.fault = .none) :
    s.fault = .none ∧ Effect i s t := by
  obtain ⟨hclr, -⟩ | ⟨-, hs, rfl⟩ | ⟨-, -, f, hne, rfl⟩ | ⟨-, hs, he⟩ := exec_next h
  · exact absurd hclr hi
  · exact absurd hf hs
  · exact absurd hf hne
  · exact ⟨hs, he⟩

theorem exec_bld_no_fault (h : exec .bld s = .next t) (hf : t.fault = .none) :
    s.fault = .none ∧ t = s.withTree (presentBytes s.freq).length (buildTree s.freq) := by
  obtain ⟨hs, ⟨⟩⟩ := exec_effect (by decide) h hf
  exact ⟨hs, rfl⟩

/-- A sequence that answers a state ran its first command, then the rest from where that ended. -/
theorem execAll_cons_next {is : List Instr} (h : execAll (i :: is) s = .next t) :
    ∃ m, exec i s = .next m ∧ execAll is m = .next t := by
  rw [execAll] at h
  split at h
  · next m hm => exact ⟨m, hm, h⟩
  · cases h
  · cases h

/-- BLD and then GEN, with no fault at the end. -/
theorem execAll_tableSession_no_fault (h : execAll tableSession s = .next t) (hf : t.fault = .none) :
    ∃ m, exec .bld s = .next m ∧ m.fault = .none ∧ generate m = some t.code := by
  obtain ⟨m, hbld, h⟩ := execAll_cons_next h
  obtain ⟨t, hgen, ⟨⟩⟩ := execAll_cons_next h
  obtain ⟨hm, he⟩ := exec_effect (by decide) hgen hf
  cases he with
  | gen _ hg => exact ⟨m, hbld, hm, hg⟩

/-! What BLD and GEN read -/

/-- The tree BLD writes is read off the counts alone (R131). -/
theorem exec_bld_tree_eq (hfreq : s.freq = u.freq) (hs : exec .bld s = .next t) (hu : exec .bld u = .next v)
    (ht : t.fault = .none) (hv : v.fault = .none) :
    t.node = v.node ∧ t.nleaf = v.nleaf ∧ t.nnode = v.nnode ∧ t.root = v.root ∧ t.rootValid = v.rootValid := by
  obtain ⟨-, rfl⟩ := exec_bld_no_fault hs ht
  obtain ⟨-, rfl⟩ := exec_bld_no_fault hu hv
  rw [withTree_buildTree, withTree_buildTree, hfreq]
  exact ⟨rfl, rfl, rfl, rfl, rfl⟩

/-- GEN reads the arena, ROOT and ROOT_VALID alone (R140). -/
theorem generate_congr (hnode : s.node = t.node) (hroot : s.root = t.root) (hvalid : s.rootValid = t.rootValid) :
    generate s = generate t := by
  rw [generate, generate, State.nodeAt, State.nodeAt, hnode, hroot, hvalid]

/-! The counts after a sequence of CNT -/

/-- FREQ after CNT b, where b's count is not full (R104). -/
def countedFreq (freq : Table Weight) (b : Byte) : Table Weight :=
  if isFiltered b then freq else Table.put freq b (Table.get freq b + 1#32)

theorem get_countedFreq (freq : Table Weight) (b c : Byte) :
    Table.get (countedFreq freq b) c =
      if c = b ∧ b ≠ Config.newline then Table.get freq c + 1#32 else Table.get freq c := by
  rw [countedFreq]
  by_cases hb : b = Config.newline
  · simp [hb]
  · by_cases hc : c = b <;> simp [hb, hc]

/-- Two counts commute. -/
theorem countedFreq_comm (freq : Table Weight) (b c : Byte) :
    countedFreq (countedFreq freq b) c = countedFreq (countedFreq freq c) b := by
  refine Table.ext fun a => ?_
  simp only [get_countedFreq]
  split_ifs <;> rfl

theorem exec_cnt_no_fault {b : Byte} (h : exec (.cnt b) s = .next t) (hf : t.fault = .none) :
    s.fault = .none ∧ t = { s with freq := countedFreq s.freq b } := by
  obtain ⟨hs, he⟩ := exec_effect (i := .cnt b) nofun h hf
  cases he with
  | cntFiltered _ hb => exact ⟨hs, by rw [countedFreq, if_pos ((isFiltered_iff b).2 hb)]⟩
  | cnt _ hb => exact ⟨hs, by rw [countedFreq, if_neg (mt (isFiltered_iff b).1 hb)]⟩

/-- Counting a sequence of bytes and building, with no fault at the end (R105, R123). -/
theorem execAll_counts_bld {bs : List Byte} (h : execAll (countSession bs ++ [.bld]) s = .next t)
    (hf : t.fault = .none) :
    s.fault = .none ∧ exec .bld { s with freq := bs.foldl countedFreq s.freq } = .next t := by
  induction bs generalizing s with
  | nil =>
    obtain ⟨m, hm, ⟨⟩⟩ := execAll_cons_next h
    exact ⟨(exec_bld_no_fault hm hf).1, hm⟩
  | cons b bs ih =>
    obtain ⟨m, hm, h⟩ := execAll_cons_next h
    obtain ⟨hfault, hbld⟩ := ih h
    obtain ⟨hs, rfl⟩ := exec_cnt_no_fault hm hfault
    exact ⟨hs, hbld⟩

end Sys2Proof.Machine
end

section
/-! CLAIMS. The tree and the code table are functions of the counts (41_tree_builder.md R131). -/

namespace Sys2Proof.Machine

/-- Settles O30: BLD writes a function of FREQ, GEN reads what BLD wrote, and counts commute. -/
theorem buildDependsOnCountsAlone : Obligations.BuildDependsOnCountsAlone := by
  refine ⟨fun s u t v hfreq _ _ => exec_bld_tree_eq hfreq, fun s u t v hfreq hs hu ht hv => ?_,
    fun s t v bs cs hperm hs hu ht hv => ?_⟩
  · obtain ⟨m, hm, hmf, htcode⟩ := execAll_tableSession_no_fault hs ht
    obtain ⟨n, hn, hnf, hvcode⟩ := execAll_tableSession_no_fault hu hv
    obtain ⟨hnode, -, -, hroot, hvalid⟩ := exec_bld_tree_eq hfreq hm hn hmf hnf
    rw [generate_congr hnode hroot hvalid, hvcode] at htcode
    exact (Option.some.inj htcode).symm
  · have hcounts : bs.foldl countedFreq s.freq = cs.foldl countedFreq s.freq :=
      hperm.foldl_eq' (fun b _ c _ freq => countedFreq_comm freq b c) s.freq
    obtain ⟨-, hbs⟩ := execAll_counts_bld hs ht
    obtain ⟨-, hcs⟩ := execAll_counts_bld hu hv
    rw [hcounts, hcs] at hbs
    exact (Host.Outcome.next.inj hbs).symm

end Sys2Proof.Machine
end

section
/-! SUPPORT. The queue of the builder in pop order (41_tree_builder.md R120, R132), and the forest that BLD merges
into one tree (R124, R125). -/

namespace Sys2Proof.Machine

variable {node : List Node} {x : Node} {i : Nat} {a c d : Idx} {q : List Idx}

/-! The arena with one more node -/

theorem getElem?_concat_eq_some {y : Node} :
    (node ++ [x])[i]? = some y ↔ node[i]? = some y ∨ (i = node.length ∧ x = y) := by
  obtain h | h | h := lt_trichotomy i node.length
  · simp [List.getElem?_append_left h, h.ne]
  · simp [h]
  · simp [h.ne', h.le, List.getElem?_eq_none, Nat.succ_le_of_lt h]

/-- The index of a new node names it, since 9 bits number every slot (R27). -/
theorem toNat_ofNat_length (h : node.length < 512) : (BitVec.ofNat 9 node.length).toNat = node.length :=
  Nat.mod_eq_of_lt h

theorem nodeRead_concat (x : Node) (h : node.length < 512) :
    nodeRead (node ++ [x]) (BitVec.ofNat 9 node.length) = x :=
  nodeRead_of_getElem? (by rw [toNat_ofNat_length h, List.getElem?_concat_length])

/-! The order of pops -/

theorem poppedBefore_append (x : Node) (ha : a.toNat < node.length) (hc : c.toNat < node.length) :
    poppedBefore (node ++ [x]) a c ↔ poppedBefore node a c := by
  rw [poppedBefore, nodeRead_append x ha, nodeRead_append x hc, poppedBefore]

theorem poppedBefore.trans (h : poppedBefore node a c) (h' : poppedBefore node c d) : poppedBefore node a d := by
  unfold poppedBefore at *
  rw [← BitVec.toNat_inj] at *
  omega

theorem poppedBefore.ne (h : poppedBefore node a c) : a ≠ c := by
  rintro rfl
  obtain h | ⟨-, h⟩ := h <;> exact lt_irrefl _ h

/-- An insert keeps a queue in the order `r`, where the new node comes after those that are not strictly heavier and
before those that are. -/
theorem pqInsert_pairwise {wt : Idx → Weight} {n : Idx} {r : Idx → Idx → Prop} {q : List Idx}
    (htrans : ∀ m k, r n m → r m k → r n k) (hafter : ∀ m ∈ q, ¬ wt n < wt m → r m n)
    (hbefore : ∀ m ∈ q, wt n < wt m → r n m) (hq : q.Pairwise r) : (pqInsert wt n q).Pairwise r := by
  induction q with
  | nil => exact List.pairwise_singleton r n
  | cons m rest ih =>
    rw [List.forall_mem_cons] at hafter hbefore
    obtain ⟨hm, hrest⟩ := List.pairwise_cons.1 hq
    rw [pqInsert]
    split
    · next hlt =>
      have hnm := hbefore.1 hlt
      exact List.pairwise_cons.2 ⟨List.forall_mem_cons.2 ⟨hnm, fun k hk => htrans m k hnm (hm k hk)⟩, hq⟩
    · next hle =>
      refine List.pairwise_cons.2 ⟨fun k hk => ?_, ih hafter.2 hbefore.2 hrest⟩
      obtain rfl | hk := mem_pqInsert.1 hk
      · exact hafter.1 hle
      · exact hm k hk

/-- The queue of a builder: nodes of the arena in the order in which they are popped (R120, R132). -/
structure Builder.Queue (b : Builder) : Prop where
  in_range : ∀ i ∈ b.pq, i.toNat < b.node.length
  sorted : b.pq.Pairwise (poppedBefore b.node)

/-- A new node goes behind the queued nodes of its weight, which are older (R132). -/
theorem Builder.Queue.add {b : Builder} (h : b.Queue) (x : Node) (hlen : b.node.length < 512) :
    (b.add x).Queue where
  in_range i hi := by
    rw [Builder.add_node, List.length_append]
    obtain rfl | hi := Builder.mem_add_pq.1 hi
    · rw [toNat_ofNat_length hlen]
      exact Nat.lt_succ_self _
    · exact Nat.lt_succ_of_lt (h.in_range i hi)
  sorted := by
    refine pqInsert_pairwise (fun _ _ => poppedBefore.trans) (fun m hm hle => ?_) (fun m _ hlt => .inl hlt)
      (h.sorted.imp_of_mem fun ha hc => (poppedBefore_append x (h.in_range _ ha) (h.in_range _ hc)).2)
    have hold : m.toNat < (BitVec.ofNat 9 b.node.length).toNat := by
      rw [toNat_ofNat_length hlen]
      exact h.in_range m hm
    exact (Nat.lt_or_eq_of_le (BitVec.not_lt.1 hle)).imp_right fun heq => ⟨BitVec.eq_of_toNat_eq heq, hold⟩

/-- The queue that pops leave. -/
theorem Builder.Queue.drop {taken : List Idx} (h : ({ node := node, pq := taken ++ q } : Builder).Queue) :
    ({ node := node, pq := q } : Builder).Queue where
  in_range i hi := h.in_range i (List.mem_append_right _ hi)
  sorted := (List.pairwise_append.1 h.sorted).2.1

/-- The summed weights of the queued nodes (R129, R130 (b)). -/
def Builder.weight (b : Builder) : Nat := (b.pq.map fun i => (nodeRead b.node i).weight.toNat).sum

theorem Builder.weight_cons (node : List Node) (a : Idx) (q : List Idx) :
    ({ node := node, pq := a :: q } : Builder).weight =
      (nodeRead node a).weight.toNat + ({ node := node, pq := q } : Builder).weight := List.sum_cons

theorem Builder.weight_add {b : Builder} (h : b.Queue) (x : Node) (hlen : b.node.length < 512) :
    (b.add x).weight = x.weight.toNat + b.weight := by
  have hperm : (b.add x).pq.Perm (BitVec.ofNat 9 b.node.length :: b.pq) := pqInsert_perm _ _ _
  have hold : ∀ i ∈ b.pq, (nodeRead (b.node ++ [x]) i).weight.toNat = (nodeRead b.node i).weight.toNat :=
    fun i hi => by rw [nodeRead_append x (h.in_range i hi)]
  rw [Builder.weight, (hperm.map _).sum_eq, List.map_cons, List.sum_cons, Builder.add_node, nodeRead_concat x hlen,
    List.map_congr_left hold, Builder.weight]

/-! Children -/

/-- The nodes a node is made of: none for a leaf, the left and the right child for an internal node (R26). -/
def Node.children (x : Node) : List Idx := if x.isLeaf then [] else [x.left, x.right]

theorem Node.mem_children : c ∈ x.children ↔ x.isLeaf = false ∧ (x.left = c ∨ x.right = c) := by
  cases h : x.isLeaf <;> simp [Node.children, h, eq_comm]

/-- Node `i` has `c` as a child. -/
def HasChild (node : List Node) (i : Nat) (c : Idx) : Prop := ∃ x, node[i]? = some x ∧ c ∈ x.children

theorem hasChild_append :
    HasChild (node ++ [x]) i c ↔ HasChild node i c ∨ (i = node.length ∧ c ∈ x.children) := by
  simp [HasChild, getElem?_concat_eq_some, or_and_right, exists_or, and_assoc]

theorem HasChild.parent_lt (h : HasChild node i c) : i < node.length := by
  obtain ⟨x, hx, -⟩ := h
  exact (List.getElem?_eq_some_iff.1 hx).1

theorem waitsAt_iff : waitsAt node i c ↔ c.toNat < i ∧ ∀ k ≤ i, ¬ HasChild node k c := by
  refine and_congr_right fun _ => ⟨fun h k hk ⟨y, hy, hc⟩ => ?_, fun h k y hk hy hl => ?_⟩
  · obtain ⟨hl, hc⟩ := Node.mem_children.1 hc
    obtain ⟨hleft, hright⟩ := h k y hk hy hl
    exact hc.elim hleft hright
  · have hc := fun hc => h k hk ⟨y, hy, Node.mem_children.2 ⟨hl, hc⟩⟩
    exact ⟨fun e => hc (.inl e), fun e => hc (.inr e)⟩

/-- A new node does not change what waited when an older one was made. -/
theorem waitsAt_append (hi : i < node.length) : waitsAt (node ++ [x]) i c ↔ waitsAt node i c := by
  simp only [waitsAt_iff, hasChild_append]
  refine and_congr_right fun _ => forall₂_congr fun k hk => ?_
  rw [or_iff_left fun h => absurd h.1 (hk.trans_lt hi).ne]

/-! The forest -/

/-- What BLD has built so far: the trees under the queued nodes. A node is queued exactly as long as it has no
parent; an internal node is a sum over two older nodes, the two popped first among those that then waited (R125,
R132). -/
structure Builder.Forest (b : Builder) : Prop where
  queue : b.Queue
  queued_iff : ∀ c, c ∈ b.pq ↔ c.toNat < b.node.length ∧ ∀ i, ¬ HasChild b.node i c
  one_parent : ∀ i j c, HasChild b.node i c → HasChild b.node j c → i = j
  internal : ∀ (i : Nat) (x : Node), b.node[i]? = some x → x.isLeaf = false →
    x.sym = Config.marker ∧ x.left.toNat < i ∧ x.right.toNat < i ∧
      x.weight.toNat = (nodeRead b.node x.left).weight.toNat + (nodeRead b.node x.right).weight.toNat
  merge_order : ∀ (i : Nat) (x : Node), b.node[i]? = some x → x.isLeaf = false →
    poppedBefore b.node x.left x.right ∧ ∀ j, waitsAt b.node i j → poppedBefore b.node x.right j

theorem Builder.Forest.child_lt {b : Builder} (h : b.Forest) (hc : HasChild b.node i c) : c.toNat < i := by
  obtain ⟨x, hx, hc⟩ := hc
  obtain ⟨hl, rfl | rfl⟩ := Node.mem_children.1 hc
  · exact (h.internal i x hx hl).2.1
  · exact (h.internal i x hx hl).2.2.1

theorem Builder.forest_empty : ({ node := [], pq := [] } : Builder).Forest where
  queue := ⟨nofun, .nil⟩
  queued_iff c := by simp
  one_parent i j c h := absurd h.parent_lt (Nat.not_lt_zero i)
  internal i x h := by simp at h
  merge_order i x h := by simp at h

/-- The nodes the new one is made of are off the queue. -/
theorem Builder.Queue.notMem_taken {taken : List Idx} (h : ({ node := node, pq := taken ++ q } : Builder).Queue)
    (hc : c ∈ q) : c ∉ taken :=
  fun ht => ((List.pairwise_append.1 h.sorted).2.2 c ht c hc).ne rfl

/-- Queued are the new node and those that waited and are no children of it. -/
theorem Builder.Forest.queued_iff_add (h : ({ node := node, pq := x.children ++ q } : Builder).Forest)
    (hlen : node.length < 512) (c : Idx) :
    c ∈ (Builder.add { node := node, pq := q } x).pq ↔
      c.toNat < (node ++ [x]).length ∧ ∀ i, ¬ HasChild (node ++ [x]) i c := by
  have hold : c ∈ x.children ∨ c ∈ q ↔ c.toNat < node.length ∧ ∀ i, ¬ HasChild node i c :=
    List.mem_append.symm.trans (h.queued_iff c)
  have hnew : c = BitVec.ofNat 9 node.length ↔ c.toNat = node.length := by
    rw [← BitVec.toNat_inj, toNat_ofNat_length hlen]
  rw [Builder.mem_add_pq, hnew, List.length_append, List.length_singleton, Nat.lt_succ_iff_lt_or_eq]
  simp only [hasChild_append, not_or, not_and, forall_and, forall_eq]
  constructor
  · rintro (hc | hc)
    · exact ⟨.inr hc, fun i hi => (h.child_lt hi).not_ge (hc ▸ hi.parent_lt.le),
        fun ht => (hold.1 (.inl ht)).1.ne hc⟩
    · obtain ⟨hlt, hnone⟩ := hold.1 (.inr hc)
      exact ⟨.inl hlt, hnone, h.queue.notMem_taken hc⟩
  · rintro ⟨hlt | heq, hnone, hnot⟩
    · exact .inr ((hold.2 ⟨hlt, hnone⟩).resolve_left hnot)
    · exact .inl heq

/-- When the new node is made, the nodes that wait are those still queued. -/
theorem Builder.Forest.mem_queue_of_waitsAt (h : ({ node := node, pq := x.children ++ q } : Builder).Forest)
    (hc : waitsAt (node ++ [x]) node.length c) : c ∈ q := by
  obtain ⟨hlt, hnone⟩ := waitsAt_iff.1 hc
  have hqueued : c ∈ x.children ++ q :=
    (h.queued_iff c).2 ⟨hlt, fun i hi => hnone i hi.parent_lt.le (hasChild_append.2 (.inl hi))⟩
  exact (List.mem_append.1 hqueued).resolve_left fun ht => hnone _ le_rfl (hasChild_append.2 (.inr ⟨rfl, ht⟩))

/-- One more node over the nodes at the front of the queue: none for a leaf, two for an internal node (R124, R125). -/
theorem Builder.Forest.add (h : ({ node := node, pq := x.children ++ q } : Builder).Forest)
    (hlen : node.length < 512) (hx : x.isLeaf = false → x.sym = Config.marker ∧
      x.weight.toNat = (nodeRead node x.left).weight.toNat + (nodeRead node x.right).weight.toNat) :
    (Builder.add { node := node, pq := q } x).Forest where
  queue := h.queue.drop.add x hlen
  queued_iff := h.queued_iff_add hlen
  one_parent i j c hi hj := by
    have hfree : c ∈ x.children → ∀ k, ¬ HasChild node k c :=
      fun hc => ((h.queued_iff c).1 (List.mem_append_left _ hc)).2
    obtain hi | ⟨rfl, hic⟩ := hasChild_append.1 hi <;> obtain hj | ⟨rfl, hjc⟩ := hasChild_append.1 hj
    · exact h.one_parent i j c hi hj
    · exact absurd hi (hfree hjc i)
    · exact absurd hj (hfree hic j)
    · rfl
  internal i y hy hl := by
    obtain hy | ⟨rfl, rfl⟩ := getElem?_concat_eq_some.1 hy
    · have hi := (List.getElem?_eq_some_iff.1 hy).1
      obtain ⟨hsym, hleft, hright, hweight⟩ := h.internal i y hy hl
      refine ⟨hsym, hleft, hright, ?_⟩
      rw [Builder.add_node, nodeRead_append x (hleft.trans hi), nodeRead_append x (hright.trans hi), hweight]
    · have hin : ∀ c, x.left = c ∨ x.right = c → c.toNat < node.length :=
        fun c hc => h.queue.in_range c (List.mem_append_left _ (Node.mem_children.2 ⟨hl, hc⟩))
      have hleft := hin _ (.inl rfl)
      have hright := hin _ (.inr rfl)
      rw [Builder.add_node, nodeRead_append x hleft, nodeRead_append x hright]
      exact ⟨(hx hl).1, hleft, hright, (hx hl).2⟩
  merge_order i y hy hl := by
    obtain hy | ⟨rfl, rfl⟩ := getElem?_concat_eq_some.1 hy
    · have hi := (List.getElem?_eq_some_iff.1 hy).1
      obtain ⟨-, hleft, hright, -⟩ := h.internal i y hy hl
      obtain ⟨hpair, hrest⟩ := h.merge_order i y hy hl
      refine ⟨(poppedBefore_append x (hleft.trans hi) (hright.trans hi)).2 hpair, fun j hj => ?_⟩
      have hj := (waitsAt_append hi).1 hj
      exact (poppedBefore_append x (hright.trans hi) (hj.1.trans hi)).2 (hrest j hj)
    · have hchildren : x.children ++ q = x.left :: x.right :: q := by simp [Node.children, hl]
      have hin := h.queue.in_range
      have hsorted := h.queue.sorted
      simp only [hchildren, List.pairwise_cons, List.forall_mem_cons] at hin hsorted
      obtain ⟨hleft, hright, hq⟩ := hin
      obtain ⟨⟨hpair, -⟩, hrest, -⟩ := hsorted
      refine ⟨(poppedBefore_append x hleft hright).2 hpair, fun j hj => ?_⟩
      have hj := h.mem_queue_of_waitsAt hj
      exact (poppedBefore_append x hright (hq j hj)).2 (hrest j hj)

/-! The leaves, then the merges -/

theorem Builder.Forest.add_leaf {b : Builder} (h : b.Forest) (freq : Table Weight) (y : Byte)
    (hlen : b.node.length < 512) : (b.add (leafNode freq y)).Forest :=
  Builder.Forest.add h hlen nofun

/-- A merge whose weights together stay within WMAX (R125, R129). -/
theorem Builder.Forest.merge (h : ({ node := node, pq := a :: c :: q } : Builder).Forest)
    (hlen : node.length < 512) (hw : ({ node := node, pq := a :: c :: q } : Builder).weight ≤ Config.wmax) :
    (Builder.add { node := node, pq := q } (internalNode node a c)).Forest ∧
      (Builder.add { node := node, pq := q } (internalNode node a c)).weight =
        ({ node := node, pq := a :: c :: q } : Builder).weight := by
  rw [Builder.weight_cons, Builder.weight_cons] at hw ⊢
  have hsum : (internalNode node a c).weight.toNat =
      (nodeRead node a).weight.toNat + (nodeRead node c).weight.toNat := by
    unfold Config.wmax at hw
    exact BitVec.toNat_add_of_lt (by omega)
  refine ⟨Builder.Forest.add h hlen fun _ => ⟨rfl, hsum⟩, ?_⟩
  rw [Builder.weight_add (Builder.Queue.drop (taken := [a, c]) h.queue) _ hlen, hsum, Nat.add_assoc]

/-- The leaves of the counts (R124). -/
theorem addLeaves_forest (freq : Table Weight) :
    (addLeaves freq).Forest ∧ (addLeaves freq).weight = totalCount freq := by
  have hlen : (addLeaves freq).node.length ≤ 512 := by
    rw [addLeaves_node_length]
    exact (presentBytes_length_le freq).trans (by decide)
  have hgo := addLeaves_induct (P := fun b => b.node.length ≤ 512 → b.Forest ∧
    b.weight = (b.node.map fun x => x.weight.toNat).sum) freq (fun _ => ⟨Builder.forest_empty, rfl⟩)
    fun b y hb _ hadd => by
      rw [Builder.add_node, List.length_append, List.length_singleton] at hadd
      obtain ⟨hforest, hweight⟩ := hb (Nat.le_of_succ_le hadd)
      refine ⟨hforest.add_leaf freq y hadd, ?_⟩
      rw [Builder.weight_add hforest.queue _ hadd, hweight]
      simp [Nat.add_comm]
  obtain ⟨hforest, hweight⟩ := hgo hlen
  refine ⟨hforest, hweight.trans ?_⟩
  rw [addLeaves_node, List.map_map, totalCount_eq_presentBytes]
  rfl

/-- The tree of the counts, where their total is at most WMAX (R125, R129, R130). -/
theorem buildTree_forest {freq : Table Weight} (ht : totalCount freq ≤ Config.wmax) :
    (buildTree freq).Forest ∧ (buildTree freq).weight = totalCount freq := by
  have hlen : (addLeaves freq).node.length + (addLeaves freq).pq.length ≤ 512 := by
    rw [addLeaves_node_length, addLeaves_pq_length]
    exact Nat.add_le_add (presentBytes_length_le freq) (presentBytes_length_le freq)
  refine (mergeLoop_induct (P := fun b => b.node.length + b.pq.length ≤ 512 ∧ b.Forest ∧
    b.weight = totalCount freq) (fun node a c q h => ?_) _ _ ⟨hlen, addLeaves_forest freq⟩).2
  obtain ⟨hlen, hforest, hweight⟩ := h
  simp only [List.length_cons] at hlen
  obtain ⟨hforest', hweight'⟩ := hforest.merge (by omega) (hweight.trans_le ht)
  refine ⟨?_, hforest', hweight'.trans hweight⟩
  rw [Builder.add_node, Builder.add_pq_length, List.length_append, List.length_singleton]
  dsimp only
  omega

end Sys2Proof.Machine
end

section
/-! SUPPORT. The tree that BLD leaves in the state (10_state.md R38; 41_tree_builder.md R130). -/

namespace Sys2Proof.Machine

variable {s : State} {freq : Table Weight}

/-- The leaves stand first in the arena, in ascending byte order, and internal nodes after them (R27, R124). -/
def Builder.LeavesFirst (freq : Table Weight) (b : Builder) : Prop :=
  ∃ inner, b.node = (presentBytes freq).map (leafNode freq) ++ inner ∧ ∀ x ∈ inner, x.isLeaf = false

theorem buildTree_leavesFirst (freq : Table Weight) : (buildTree freq).LeavesFirst freq := by
  refine mergeLoop_induct (fun node a c q h => ?_) _ _ ⟨[], by simp [addLeaves_node], nofun⟩
  obtain ⟨inner, rfl, hinner⟩ := h
  refine ⟨inner ++ [internalNode _ a c], List.append_assoc .., fun x hx => ?_⟩
  obtain hx | hx := List.mem_append.1 hx
  · exact hinner x hx
  · rw [List.mem_singleton.1 hx]
    rfl

theorem buildTree_leaves (freq : Table Weight) :
    (buildTree freq).node.take (presentBytes freq).length = (presentBytes freq).map (leafNode freq) := by
  obtain ⟨inner, hnode, -⟩ := buildTree_leavesFirst freq
  rw [hnode, List.take_left' (List.length_map _)]

theorem buildTree_leaf {i : Nat} {x : Node} (hx : (buildTree freq).node[i]? = some x)
    (hi : i < (presentBytes freq).length) :
    ∃ b, (presentBytes freq)[i]? = some b ∧ x = leafNode freq b := by
  rw [← List.getElem?_take_of_lt hi, buildTree_leaves, List.getElem?_map, Option.map_eq_some_iff] at hx
  obtain ⟨b, hb, rfl⟩ := hx
  exact ⟨b, hb, rfl⟩

theorem buildTree_internal {i : Nat} {x : Node} (hx : (buildTree freq).node[i]? = some x)
    (hi : (presentBytes freq).length ≤ i) : x.isLeaf = false := by
  obtain ⟨inner, hnode, hinner⟩ := buildTree_leavesFirst freq
  rw [hnode, List.getElem?_append_right (by rwa [List.length_map])] at hx
  exact hinner x (List.mem_of_getElem? hx)

/-- NODE has room for the tree (R5, R129). -/
theorem buildTree_node_length_le (freq : Table Weight) : (buildTree freq).node.length ≤ Config.nodeMax := by
  have := presentBytes_length_le freq
  rw [buildTree_node_length, Config.nodeMax]
  omega

/-- Every node of the tree but the last one made has a parent (R38). -/
theorem buildTree_hasParent (ht : totalCount freq ≤ Config.wmax) {c : Idx}
    (hc : c.toNat + 1 < (buildTree freq).node.length) : ∃ i, HasChild (buildTree freq).node i c := by
  by_contra hnone
  have hqueued := ((buildTree_forest ht).1.queued_iff c).2 ⟨Nat.lt_of_succ_lt hc, not_exists.1 hnone⟩
  have hmax := buildTree_node_length_le freq
  rw [buildTree_pq] at hqueued
  split at hqueued
  · cases hqueued
  · rw [List.mem_singleton.1 hqueued, BitVec.toNat_ofNat] at hc
    rw [Config.nodeMax] at hmax
    omega

/-- The root weighs the total (R130 (b)). -/
theorem buildTree_root_weight (ht : totalCount freq ≤ Config.wmax) {r : Idx} (hr : (buildTree freq).pq = [r]) :
    (nodeRead (buildTree freq).node r).weight.toNat = totalCount freq := by
  obtain ⟨-, hweight⟩ := buildTree_forest ht
  rw [← hweight, Builder.weight, hr]
  rfl

/-- The tree of the counts meets the tree invariants (R38, R130). -/
theorem treeShape_of_buildTree (ht : totalCount s.freq ≤ Config.wmax) (hnode : s.node = (buildTree s.freq).node)
    (hn : s.nleaf.toNat = (presentBytes s.freq).length)
    (hroot : s.rootValid = true → (buildTree s.freq).pq = [s.root]) : TreeShape s := by
  obtain ⟨hforest, -⟩ := buildTree_forest ht
  constructor
  case leaf =>
    intro i x hx hi
    rw [hnode] at hx
    obtain ⟨b, hb, rfl⟩ := buildTree_leaf hx (hn ▸ hi)
    have hcount := mem_presentBytes.1 (List.mem_of_getElem? hb)
    exact ⟨rfl, rfl, rfl, rfl, Nat.one_le_iff_ne_zero.2 fun h0 => hcount (BitVec.eq_of_toNat_eq h0)⟩
  case leaf_order =>
    intro i j x y hx hy hij hj
    rw [hnode] at hx hy
    rw [hn] at hj
    obtain ⟨b, hb, rfl⟩ := buildTree_leaf hx (hij.trans hj)
    obtain ⟨c, hc, rfl⟩ := buildTree_leaf hy hj
    obtain ⟨hi, rfl⟩ := List.getElem?_eq_some_iff.1 hb
    obtain ⟨hj, rfl⟩ := List.getElem?_eq_some_iff.1 hc
    exact List.pairwise_iff_getElem.1 (presentBytes_sorted s.freq) i j hi hj hij
  case leaf_all =>
    intro _ b hb
    obtain ⟨i, hi⟩ := List.mem_iff_getElem?.1 (mem_presentBytes.2 hb)
    have hlt := (List.getElem?_eq_some_iff.1 hi).1
    refine ⟨i, leafNode s.freq b, hn ▸ hlt, ?_, rfl⟩
    rw [hnode, ← List.getElem?_take_of_lt hlt, buildTree_leaves, List.getElem?_map, hi]
    rfl
  case internal =>
    intro i x hx hi
    rw [hnode] at hx
    have hl := buildTree_internal hx (hn ▸ hi)
    obtain ⟨hsym, hleft, hright, hweight⟩ := hforest.internal i x hx hl
    rw [State.nodeAt, State.nodeAt, hnode]
    exact ⟨hl, hsym, hleft, hright, (hforest.merge_order i x hx hl).1.ne, hweight⟩
  case has_parent =>
    intro c hc
    rw [State.nnode, hnode] at hc
    have hmax := buildTree_node_length_le s.freq
    have hidx : (BitVec.ofNat 9 c).toNat = c := by
      rw [Config.nodeMax] at hmax
      exact Nat.mod_eq_of_lt (by omega)
    obtain ⟨i, x, hx, hchild⟩ := buildTree_hasParent (c := BitVec.ofNat 9 c) ht (hidx.symm ▸ hc)
    obtain ⟨hl, hchild⟩ := Node.mem_children.1 hchild
    rw [hnode]
    have hval : ∀ d, d = BitVec.ofNat 9 c → d.toNat = c := fun d e => e ▸ hidx
    exact ⟨i, x, hx, hl, hchild.imp (hval _) (hval _)⟩
  case one_parent =>
    intro i j x y c hx hy hxl hyl hxc hyc
    rw [hnode] at hx hy
    exact hforest.one_parent i j c ⟨x, hx, Node.mem_children.2 ⟨hxl, hxc⟩⟩
      ⟨y, hy, Node.mem_children.2 ⟨hyl, hyc⟩⟩
  case merge_order =>
    rw [hnode]
    exact hforest.merge_order
  case root_weight =>
    intro hv
    rw [State.nodeAt, hnode]
    exact buildTree_root_weight ht (hroot hv)

/-- A root-to-leaf path passes internal nodes of ever smaller index (R130 (d)). -/
theorem TreeShape.leafAt_length_le (h : TreeShape s) {b : Byte} {p : Code} {i : Idx} (hi : i.toNat < s.nnode)
    (hp : leafAt s.node i p = some b) : p.length ≤ i.toNat + 1 - s.nleaf.toNat := by
  induction p generalizing i with
  | nil => exact Nat.zero_le _
  | cons d p ih =>
    rw [leafAt] at hp
    split at hp
    · cases hp
    · next hl =>
      have hx := getElem?_of_lt hi
      have hinner : s.nleaf.toNat ≤ i.toNat := by
        by_contra hlt
        exact hl (h.leaf _ _ hx (Nat.lt_of_not_le hlt)).1
      obtain ⟨-, -, hleft, hright, -⟩ := h.internal _ _ hx hinner
      have hchild : ((nodeRead s.node i).child d).toNat < i.toNat := by
        cases d
        · exact hleft
        · exact hright
      have := ih (hchild.trans hi) hp
      rw [List.length_cons]
      omega

/-! What BLD leaves -/

theorem toNat_ofNat_leaves (freq : Table Weight) :
    (BitVec.ofNat 9 (presentBytes freq).length).toNat = (presentBytes freq).length :=
  Nat.mod_eq_of_lt ((presentBytes_length_le freq).trans_lt (by decide))

/-- BLD leaves a tree that meets the tree invariants (R130 (e)). -/
theorem treeShape_withTree (ht : totalCount s.freq ≤ Config.wmax) :
    TreeShape (s.withTree (presentBytes s.freq).length (buildTree s.freq)) := by
  rw [withTree_buildTree]
  refine treeShape_of_buildTree ht rfl (toNat_ofNat_leaves s.freq) fun hv => ?_
  have hne := of_decide_eq_true hv
  rw [buildTree_pq, if_neg hne]
  exact congrArg (fun r => [r]) (if_neg hne).symm

end Sys2Proof.Machine
end

section
/-! CLAIMS. BLD builds the tree of the counts (41_tree_builder.md R130). -/

namespace Sys2Proof.Machine

/-- Settles O26: the forest of the leaves is merged into one tree, whose nodes are made in pop order. -/
theorem bldBuildsTheTree : Obligations.BldBuildsTheTree := by
  intro s hf hp ht
  have hshape := treeShape_withTree ht
  have hbld := exec_bld_builds hf hp ht
  rw [withTree_buildTree] at hshape hbld
  have hn := toNat_ofNat_leaves s.freq
  have hnnode := buildTree_node_length s.freq
  have hle := presentBytes_length_le s.freq
  refine ⟨_, hbld, rfl, hshape, hn, ?_, ?_, ?_, fun hv => ?_⟩
  · rw [hn, buildTree_leaves, List.map_map]
    exact List.map_id _
  · rw [hn]
    exact hnnode
  · rw [hn, decide_eq_true_iff, Nat.one_le_iff_ne_zero, ne_eq, ne_eq, List.length_eq_zero_iff]
  · have hne : presentBytes s.freq ≠ [] := of_decide_eq_true hv
    have hpos := List.length_pos_iff.2 hne
    have hroot : (BitVec.ofNat 9 ((buildTree s.freq).node.length - 1)).toNat = (buildTree s.freq).node.length - 1 :=
      Nat.mod_eq_of_lt (by omega)
    refine ⟨(congrArg BitVec.toNat (if_neg hne)).trans hroot, hshape.root_weight hv, fun p b hpath => ?_⟩
    rw [if_neg hne] at hpath
    have hlen := hshape.leafAt_length_le (hroot.trans_lt (Nat.sub_lt (by omega) Nat.one_pos)) hpath
    rw [hn, hroot] at hlen
    rw [hn]
    omega

end Sys2Proof.Machine
end

section
/-! SUPPORT. The root-to-leaf paths of the tree, and the entries of the code table (42_code_table.md R141, R144,
R145). -/

namespace Sys2Proof.Machine

variable {node : List Node} {s : State} {i : Idx} {a b : Byte} {p q : Code}

/-- A slot number of the arena fits a node index (R5). -/
theorem exists_idx {k : Nat} (hk : k < 512) : ∃ i : Idx, i.toNat = k :=
  ⟨BitVec.ofNat 9 k, Nat.mod_eq_of_lt hk⟩

/-! The paths of an arena -/

theorem leafAt_nil_eq_some :
    leafAt node i [] = some b ↔ (nodeRead node i).isLeaf = true ∧ (nodeRead node i).sym = b := by
  simp [leafAt]

theorem leafAt_cons_eq_some {d : Bool} :
    leafAt node i (d :: p) = some b ↔
      (nodeRead node i).isLeaf = false ∧ leafAt node ((nodeRead node i).child d) p = some b := by
  cases hl : (nodeRead node i).isLeaf <;> simp [leafAt, hl]

/-- No path goes on past the leaf it leads to (R145). -/
theorem leafAt_eq_of_prefix (hpq : p <+: q) (hp : leafAt node i p = some a) (hq : leafAt node i q = some b) :
    a = b := by
  obtain ⟨r, rfl⟩ := hpq
  induction p generalizing i with
  | nil =>
    obtain ⟨hl, rfl⟩ := leafAt_nil_eq_some.1 hp
    cases r with
    | nil => exact (leafAt_nil_eq_some.1 hq).2
    | cons d r =>
      obtain ⟨hl', -⟩ := leafAt_cons_eq_some.1 hq
      rw [hl] at hl'
      cases hl'
  | cons d p ih =>
    exact ih (leafAt_cons_eq_some.1 hp).2 (leafAt_cons_eq_some.1 hq).2

/-! The leaves of the tree -/

/-- `b` is the symbol of some leaf (R144). -/
def State.HasLeaf (s : State) (b : Byte) : Prop :=
  ∃ (k : Nat) (x : Node), s.node[k]? = some x ∧ x.isLeaf = true ∧ x.sym = b

/-- The leaves are the nodes before NLEAF (R27, R38). -/
theorem TreeShape.isLeaf_iff (h : TreeShape s) {k : Nat} {x : Node} (hx : s.node[k]? = some x) :
    x.isLeaf = true ↔ k < s.nleaf.toNat := by
  refine ⟨fun hl => ?_, fun hk => (h.leaf k x hx hk).1⟩
  by_contra hk
  rw [(h.internal k x hx (Nat.le_of_not_lt hk)).1] at hl
  cases hl

/-- A child stands before its parent in the arena (R38). -/
theorem TreeShape.child_lt (h : TreeShape s) {k : Nat} {x : Node} (hx : s.node[k]? = some x)
    (hl : x.isLeaf = false) (d : Bool) : (x.child d).toNat < k := by
  have hk : ¬ k < s.nleaf.toNat := by
    rw [← h.isLeaf_iff hx, hl]
    decide
  obtain ⟨-, -, hleft, hright, -⟩ := h.internal k x hx (Nat.le_of_not_lt hk)
  cases d
  · exact hleft
  · exact hright

/-- A path that starts in the tree ends on a leaf of the tree. -/
theorem TreeShape.hasLeaf_of_leafAt (h : TreeShape s) (hi : i.toNat < s.nnode) (hp : leafAt s.node i p = some b) :
    s.HasLeaf b := by
  induction p generalizing i with
  | nil => exact ⟨_, _, getElem?_of_lt hi, leafAt_nil_eq_some.1 hp⟩
  | cons d p ih =>
    obtain ⟨hl, hp⟩ := leafAt_cons_eq_some.1 hp
    exact ih ((h.child_lt (getElem?_of_lt hi) hl d).trans hi) hp

/-- From the root, the last node made, a path leads through every node: climb from parent to parent (R38). -/
theorem TreeShape.exists_path_through (h : TreeShape s) (hroot : s.root.toNat + 1 = s.nnode)
    (hi : i.toNat < s.nnode) (hp : leafAt s.node i p = some b) : ∃ q, leafAt s.node s.root q = some b := by
  induction hn : s.nnode - i.toNat using Nat.strong_induction_on generalizing i p with
  | h n ih =>
    by_cases hlast : i.toNat = s.root.toNat
    · exact ⟨p, BitVec.eq_of_toNat_eq hlast ▸ hp⟩
    · obtain ⟨k, x, hx, hl, hchild⟩ := h.has_parent i.toNat (by omega)
      have hk : k < s.nnode := (List.getElem?_eq_some_iff.1 hx).1
      obtain ⟨j, rfl⟩ : ∃ j : Idx, j.toNat = k := exists_idx (by omega)
      obtain ⟨d, hd⟩ : ∃ d, x.child d = i := by
        obtain hc | hc := hchild
        · exact ⟨false, BitVec.eq_of_toNat_eq hc⟩
        · exact ⟨true, BitVec.eq_of_toNat_eq hc⟩
      have hlt := h.child_lt hx hl d
      rw [hd] at hlt
      refine ih (s.nnode - j.toNat) (by omega) hk (p := d :: p) ?_ rfl
      rw [leafAt_cons_eq_some, nodeRead_of_getElem? hx, hd]
      exact ⟨hl, hp⟩

/-- The bytes on the leaves are the bytes counted (R124, R144). -/
theorem TreeShape.hasLeaf_iff_counted (h : TreeShape s) (hp : s.phase ≠ .idle) :
    s.HasLeaf b ↔ 1 ≤ (Table.get s.freq b).toNat := by
  constructor
  · rintro ⟨k, x, hx, hl, rfl⟩
    obtain ⟨-, -, -, hweight, hpos⟩ := h.leaf k x hx ((h.isLeaf_iff hx).1 hl)
    exact hweight ▸ hpos
  · intro hb
    obtain ⟨k, x, hk, hx, hsym⟩ := h.leaf_all hp b fun h0 => by simp [h0] at hb
    exact ⟨k, x, hx, (h.isLeaf_iff hx).2 hk, hsym⟩

/-- The symbols of the leaves, in slot order. -/
def State.leafSyms (s : State) : List Byte := (s.node.take s.nleaf.toNat).map Node.sym

theorem TreeShape.getElem?_leaves_eq_some (h : TreeShape s) {k : Nat} {x : Node} :
    (s.node.take s.nleaf.toNat)[k]? = some x ↔ s.node[k]? = some x ∧ x.isLeaf = true := by
  rw [List.getElem?_take, Option.ite_none_right_eq_some, and_comm]
  exact and_congr_right fun hx => (h.isLeaf_iff hx).symm

theorem TreeShape.mem_leafSyms (h : TreeShape s) : b ∈ s.leafSyms ↔ s.HasLeaf b := by
  rw [State.leafSyms, List.mem_map]
  simp only [List.mem_iff_getElem?, h.getElem?_leaves_eq_some, ← exists_and_right, and_assoc]
  exact exists_comm

/-- The leaves stand in ascending byte order, so no byte is on two of them (R27). -/
theorem TreeShape.leafSyms_nodup (h : TreeShape s) : s.leafSyms.Nodup := by
  refine List.Pairwise.imp BitVec.ne_of_lt (List.pairwise_map.2 (List.pairwise_iff_getElem.2 ?_))
  intro i j hi hj hij
  obtain ⟨hx, -⟩ := h.getElem?_leaves_eq_some.1 (List.getElem?_eq_getElem hi)
  obtain ⟨hy, hl⟩ := h.getElem?_leaves_eq_some.1 (List.getElem?_eq_getElem hj)
  exact h.leaf_order i j _ _ hx hy hij ((h.isLeaf_iff hy).1 hl)

theorem Bookkeeping.leafSyms_length (h : Bookkeeping s) : s.leafSyms.length = s.nleaf.toNat := by
  have hnode : s.node.length = 2 * s.nleaf.toNat - 1 := h.node_count
  rw [State.leafSyms, List.length_map, List.length_take, hnode]
  omega

/-! The entries of the code table -/

/-- The root is the last node of the tree (R29, R42). -/
theorem Bookkeeping.root_last (h : Bookkeeping s) (hv : s.rootValid = true) : s.root.toNat + 1 = s.nnode := by
  obtain ⟨-, hpos⟩ := h.root_valid.1 hv
  have hcount := h.node_count
  have hle := h.leaves_bound
  rw [h.root_index, if_pos hv, BitVec.toNat_ofNat, Nat.mod_eq_of_lt (by omega)]
  omega

/-- A code is a path from the root to a leaf of its byte (R141). -/
theorem State.Inv.path_of_code (h : s.Inv) (hc : Table.get s.code b = some p) :
    s.rootValid = true ∧ leafAt s.node s.root p = some b := by
  by_cases hp : s.phase = .ready
  · exact (h.codes.after hp b p).1 hc
  · rw [h.codes.before hp b] at hc
    cases hc

/-- After GEN the bytes with a code are the bytes on the leaves (R144). -/
theorem State.Inv.coded_iff_hasLeaf (h : s.Inv) (hp : s.phase = .ready) :
    Table.get s.code b ≠ none ↔ s.HasLeaf b := by
  rw [Option.ne_none_iff_exists']
  constructor
  · rintro ⟨p, hc⟩
    obtain ⟨hv, hpath⟩ := h.path_of_code hc
    exact h.tree.hasLeaf_of_leafAt (Nat.lt_of_succ_le (h.bookkeeping.root_last hv).le) hpath
  · rintro ⟨k, x, hx, hl, rfl⟩
    have hk := (h.tree.isLeaf_iff hx).1 hl
    have hv := h.bookkeeping.root_valid.2 ⟨by simp [hp], Nat.one_le_of_lt hk⟩
    have hlast := h.bookkeeping.root_last hv
    have hlt : k < s.nnode := (List.getElem?_eq_some_iff.1 hx).1
    obtain ⟨i, rfl⟩ : ∃ i : Idx, i.toNat = k := exists_idx (by omega)
    have hleaf : leafAt s.node i [] = some x.sym := by
      rw [leafAt_nil_eq_some, nodeRead_of_getElem? hx]
      exact ⟨hl, rfl⟩
    obtain ⟨q, hq⟩ := h.tree.exists_path_through hlast hlt hleaf
    exact ⟨q, (h.codes.after hp x.sym q).2 ⟨hv, hq⟩⟩

/-- After GEN there are as many codes as leaves (R144). -/
theorem State.Inv.coded_length (h : s.Inv) (hp : s.phase = .ready) :
    (allBytes.filter fun b => (Table.get s.code b).isSome).length = s.nleaf.toNat := by
  rw [← h.bookkeeping.leafSyms_length]
  refine List.Perm.length_eq ((List.perm_ext_iff_of_nodup ?_ h.tree.leafSyms_nodup).2 fun b => ?_)
  · exact (allBytes_sorted.imp BitVec.ne_of_lt).filter _
  · rw [h.tree.mem_leafSyms, ← h.coded_iff_hasLeaf hp, List.mem_filter, Option.isSome_iff_ne_none]
    exact and_iff_right (mem_allBytes b)

/-- ENC of a byte that has no code (R151). -/
theorem exec_enc_noSymbol (hf : s.fault = .none) (hm : s.mode = .enc) (hb : b ≠ Config.newline)
    (hc : Table.get s.code b = none) : exec (.enc b) s = .next (s.raise .noSymbol (encode (.enc b))) := by
  rw [exec_enc, dispatch_admitted hf (by simp [admitted, hm]), encodeByte, if_neg (by simpa using hb), hc]

/-! How long a code is -/

theorem State.Inv.code_length_le (h : s.Inv) (hc : Table.get s.code b = some p) :
    p.length ≤ s.nleaf.toNat - 1 := by
  obtain ⟨hv, hpath⟩ := h.path_of_code hc
  have hlast := h.bookkeeping.root_last hv
  have hcount := h.bookkeeping.node_count
  have hlen := h.tree.leafAt_length_le (Nat.lt_of_succ_le hlast.le) hpath
  omega

/-- With two leaves or more the root is no leaf. -/
theorem State.Inv.code_ne_nil (h : s.Inv) (hn : 2 ≤ s.nleaf.toNat) (hc : Table.get s.code b = some p) : p ≠ [] := by
  rintro rfl
  obtain ⟨hv, hpath⟩ := h.path_of_code hc
  have hlast := h.bookkeeping.root_last hv
  have hcount := h.bookkeeping.node_count
  have hroot := (h.tree.isLeaf_iff (getElem?_of_lt (Nat.lt_of_succ_le hlast.le))).1 (leafAt_nil_eq_some.1 hpath).1
  omega

end Sys2Proof.Machine
end

section
/-! CLAIMS. One code a leaf, and no code the first part of another (42_code_table.md R144, R145). -/

namespace Sys2Proof.Machine

/-- Settles O33: from the root, the last node made, a path leads to every leaf, and the leaves are the bytes
counted. -/
theorem oneCodePerLeaf : Obligations.OneCodePerLeaf := by
  intro s h hp
  have hcounted : ∀ b, Table.get s.code b ≠ none ↔ 1 ≤ (Table.get s.freq b).toNat := fun b =>
    (h.coded_iff_hasLeaf hp).trans (h.tree.hasLeaf_iff_counted (by simp [hp]))
  refine ⟨hcounted, fun _ => h.coded_iff_hasLeaf hp, h.coded_length hp, ?_, fun b hf hm => exec_enc_noSymbol hf hm⟩
  by_contra hc
  have hpos := (hcounted Config.newline).1 hc
  rw [h.bookkeeping.newline_uncounted] at hpos
  cases hpos

/-- Settles O34: a walk stops at the first leaf it meets, and the root is a leaf only where it is the one node. -/
theorem codesArePrefixFree : Obligations.CodesArePrefixFree := by
  intro s h
  refine ⟨fun a b p q hne hp hq hpq => ?_, fun b p hn hp => ?_, fun b p hn hp => ?_⟩
  · exact hne (leafAt_eq_of_prefix hpq (h.path_of_code hp).2 (h.path_of_code hq).2)
  · have hlen := h.code_length_le hp
    exact List.length_eq_zero_iff.1 (by omega)
  · exact List.length_pos_iff.2 (h.code_ne_nil hn hp)

end Sys2Proof.Machine
end

section
/-! SUPPORT. ENC case by case, and what a run of ENC writes (43_encoder.md R151, R153). -/

namespace Sys2Proof.Machine

variable {s t : State} {b : Byte} {p : Code}

/-- A command's word is its opcode in bits [15:12] above its operand (R80). -/
theorem encode_eq_or (i : Instr) :
    encode i = BitVec.ofNat 16 (4096 * i.opcode.toNat) ||| i.operand.setWidth 16 := by
  have hor : 4096 * i.opcode.toNat + i.operand.toNat = 4096 * i.opcode.toNat ||| i.operand.toNat :=
    Nat.two_pow_add_eq_or_of_lt (i := 12) (i.operand.isLt.trans (by decide)) _
  have hop : 4096 * i.opcode.toNat < 2 ^ 16 := by omega
  apply BitVec.eq_of_toNat_eq
  rw [encode_toNat, hor, BitVec.toNat_or, BitVec.toNat_setWidth_of_le (by decide), BitVec.toNat_ofNat,
    Nat.mod_eq_of_lt hop]

theorem exec_enc_runs (hf : s.fault = .none) (hm : s.mode = .enc) (b : Byte) :
    exec (.enc b) s = encodeByte b s :=
  (exec_enc s b).trans (dispatch_admitted hf (beq_iff_eq.2 hm))

/-! The body of ENC (R151): the filter, the table, the capacity -/

theorem encodeByte_newline (s : State) : encodeByte Config.newline s = .next s := rfl

theorem encodeByte_noCode (hb : b ≠ Config.newline) (hc : Table.get s.code b = none) :
    encodeByte b s = .next (s.raise .noSymbol (encode (.enc b))) := by
  rw [encodeByte, if_neg (mt (isFiltered_iff b).1 hb), hc]

theorem encodeByte_full (hb : b ≠ Config.newline) (hc : Table.get s.code b = some p)
    (hfull : s.outCap < s.outLen + p.length) :
    encodeByte b s = .next (s.raise .resource (encode (.enc b))) := by
  simp [encodeByte, hb, hc, fits_iff, hfull]

theorem encodeByte_fits (hb : b ≠ Config.newline) (hc : Table.get s.code b = some p)
    (hfit : s.outLen + p.length ≤ s.outCap) : encodeByte b s = .next (s.emitAll (codeChars p)) := by
  simp [encodeByte, hb, hc, fits_iff, hfit]

/-! The characters an encode session writes (R153) -/

/-- The codes of the bytes that are not filtered, in order and in character form. -/
def encodedChars (code : Table (Option Code)) (bs : List Byte) : List Byte :=
  (filterBytes bs).flatMap fun b => codeChars ((Table.get code b).getD [])

theorem filterBytes_cons (hb : b ≠ Config.newline) (bs : List Byte) :
    filterBytes (b :: bs) = b :: filterBytes bs :=
  List.filter_cons_of_pos (by simp [isFiltered, hb])

theorem encodedChars_newline (code : Table (Option Code)) (bs : List Byte) :
    encodedChars code (Config.newline :: bs) = encodedChars code bs := rfl

theorem encodedChars_cons {code : Table (Option Code)} (hb : b ≠ Config.newline)
    (hc : Table.get code b = some p) (bs : List Byte) :
    encodedChars code (b :: bs) = codeChars p ++ encodedChars code bs := by
  rw [encodedChars, filterBytes_cons hb, List.flatMap_cons, hc]
  rfl

@[simp] theorem codeChars_length (p : Code) : (codeChars p).length = p.length := List.length_map _

theorem encodedChars_length (code : Table (Option Code)) (bs : List Byte) :
    (encodedChars code bs).length = ((filterBytes bs).map fun b => ((Table.get code b).getD []).length).sum := by
  simp [encodedChars, List.length_flatMap]

/-- A code bit is written as CHAR0 or CHAR1 (R88). -/
theorem eq_char_of_mem_encodedChars {code : Table (Option Code)} {bs : List Byte} {x : Byte}
    (hx : x ∈ encodedChars code bs) : x = Config.char0 ∨ x = Config.char1 := by
  obtain ⟨b, -, hx⟩ := List.mem_flatMap.1 hx
  obtain ⟨d, -, rfl⟩ := List.mem_map.1 hx
  cases d
  · exact .inl rfl
  · exact .inr rfl

theorem State.emitAll_nil (s : State) : s.emitAll [] = s := by
  rw [State.emitAll, List.append_nil]

theorem State.emitAll_emitAll (s : State) (xs ys : List Byte) :
    (s.emitAll xs).emitAll ys = s.emitAll (xs ++ ys) := by
  simp [State.emitAll]

/-- Bytes that have codes are encoded one after the other when all of it fits. -/
theorem execAll_encs {bs : List Byte} (hf : s.fault = .none) (hm : s.mode = .enc)
    (hcodes : ∀ b ∈ filterBytes bs, Table.get s.code b ≠ none)
    (hfit : s.outLen + (encodedChars s.code bs).length ≤ s.outCap) :
    execAll (bs.map .enc) s = .next (s.emitAll (encodedChars s.code bs)) := by
  induction bs generalizing s with
  | nil => exact congrArg _ s.emitAll_nil.symm
  | cons b bs ih =>
    by_cases hb : b = Config.newline
    · subst hb
      exact (execAll_cons (exec_enc_runs hf hm _) _).trans (ih hf hm hcodes hfit)
    · rw [filterBytes_cons hb, List.forall_mem_cons] at hcodes
      obtain ⟨hcoded, hcodes⟩ := hcodes
      obtain ⟨p, hc⟩ := Option.ne_none_iff_exists'.1 hcoded
      rw [encodedChars_cons hb hc, List.length_append, codeChars_length] at hfit
      have henc := (exec_enc_runs hf hm b).trans (encodeByte_fits hb hc (by omega))
      have hrest := ih (s := s.emitAll (codeChars p)) hf hm hcodes (by simpa [add_assoc] using hfit)
      rw [List.map_cons, execAll_cons henc, hrest, State.emitAll_emitAll, State.emitAll_code,
        encodedChars_cons hb hc]

/-- A run of ENC and EEND that ends with no fault wrote the codes and closed the session. -/
theorem execAll_encs_eend_no_fault {bs : List Byte} (h : execAll (bs.map .enc ++ [.eend]) s = .next t)
    (hf : t.fault = .none) :
    s.fault = .none ∧ t = { s.emitAll (encodedChars s.code bs) with mode := .none } := by
  induction bs generalizing s with
  | nil =>
    obtain ⟨t, he, ⟨⟩⟩ := execAll_cons_next h
    obtain ⟨hs, ⟨⟩⟩ := exec_effect (by decide) he hf
    exact ⟨hs, by rw [encodedChars, filterBytes, List.filter_nil, List.flatMap_nil, State.emitAll_nil]⟩
  | cons b bs ih =>
    obtain ⟨m, hm, h⟩ := execAll_cons_next h
    obtain ⟨hfault, rfl⟩ := ih h
    obtain ⟨hs, he⟩ := exec_effect (i := .enc b) nofun hm hfault
    refine ⟨hs, ?_⟩
    cases he with
    | encFiltered _ hb => rw [hb, encodedChars_newline]
    | enc _ hb hc => rw [State.emitAll_emitAll, State.emitAll_code, encodedChars_cons hb hc]

end Sys2Proof.Machine
end

section
/-! SUPPORT. A change of the state that a command does not see (43_encoder.md R154). -/

namespace Sys2Proof.Machine

variable {s t : State}

/-- A change that the dispatch of R100 does not see and the body keeps is kept by the whole command. -/
theorem dispatch_commutes {i : Instr} {body : State → Result} (change : State → State)
    (hfault : (change s).fault = s.fault) (hadm : admitted i (change s) = admitted i s)
    (hraise : ∀ f w, change (s.raise f w) = (change s).raise f w)
    (hbody : ∀ t, body s = .next t → body (change s) = .next (change t))
    (h : dispatch i body s = .next t) : dispatch i body (change s) = .next (change t) := by
  obtain ⟨hf, ht⟩ | ⟨hf, ha, ht⟩ | ⟨hf, ha, ht⟩ := dispatch_cases h
  · cases ht
    exact dispatch_faulted (hfault.trans_ne hf)
  · cases ht
    exact (dispatch_illegal (hfault.trans hf) (hadm.trans ha)).trans (congrArg _ (hraise _ _).symm)
  · exact (dispatch_admitted (hfault.trans hf) (hadm.trans ha)).trans (hbody t ht.symm)

/-- The same state over another tree: NODE, ROOT, ROOT_VALID and CUR replaced. -/
def State.overTree (node : List Node) (root : Idx) (valid : Bool) (cur : Idx) (s : State) : State :=
  { s with node := node, root := root, rootValid := valid, cur := cur }

variable (node : List Node) (root cur : Idx) (valid : Bool)

theorem admitted_overTree (i : Instr) (s : State) : admitted i (s.overTree node root valid cur) = admitted i s := by
  cases i <;> rfl

theorem dispatch_overTree {i : Instr} {body : State → Result}
    (hbody : ∀ t, body s = .next t →
      body (s.overTree node root valid cur) = .next (t.overTree node root valid cur))
    (h : dispatch i body s = .next t) :
    dispatch i body (s.overTree node root valid cur) = .next (t.overTree node root valid cur) :=
  dispatch_commutes (State.overTree node root valid cur) rfl (admitted_overTree _ _ _ _ i s) (fun _ _ => rfl) hbody h

/-- ENC reads CODE and OUT alone. -/
theorem encodeByte_overTree {b : Byte} (h : encodeByte b s = .next t) :
    encodeByte b (s.overTree node root valid cur) = .next (t.overTree node root valid cur) := by
  by_cases hb : b = Config.newline
  · subst hb
    cases h
    rfl
  · cases hc : Table.get s.code b with
    | none =>
      cases (encodeByte_noCode hb hc).symm.trans h
      exact encodeByte_noCode hb hc
    | some p =>
      obtain hfit | hfull := le_or_gt (s.outLen + p.length) s.outCap
      · cases (encodeByte_fits hb hc hfit).symm.trans h
        exact encodeByte_fits hb hc hfit
      · cases (encodeByte_full hb hc hfull).symm.trans h
        exact encodeByte_full hb hc hfull

end Sys2Proof.Machine
end

section
/-! CLAIMS. The encoder (43_encoder.md R150 to R154). -/

namespace Sys2Proof.Machine

/-- Settles O37: the dispatch of R100, and the body where READY has no session open. -/
theorem ebegOpensAnEncodeSession : Obligations.EbegOpensAnEncodeSession := fun _ =>
  ⟨rfl, fun hf => exec_faulted hf nofun, fun hf hn => exec_not_admitted hf (by simpa [admitted] using hn),
    exec_ebeg_opens⟩

/-- Settles O38: the dispatch of R100, then the four cases of the body in the order of R151. -/
theorem encAppendsTheCode : Obligations.EncAppendsTheCode := by
  intro s b
  refine ⟨encode_eq_or (.enc b), fun hf => exec_faulted hf nofun,
    fun hf hm => exec_not_admitted hf (beq_eq_false_iff_ne.2 hm), ?_, exec_enc_noSymbol, ?_, ?_⟩
  · rintro hf hm rfl
    exact (exec_enc_runs hf hm _).trans (encodeByte_newline s)
  · intro p hf hm hb hc hfull
    exact (exec_enc_runs hf hm b).trans (encodeByte_full hb hc hfull)
  · intro p hf hm hb hc hfit
    exact (exec_enc_runs hf hm b).trans (encodeByte_fits hb hc hfit)

/-- Settles O39: the dispatch of R100, and the body in an encode session. -/
theorem eendClosesTheEncodeSession : Obligations.EendClosesTheEncodeSession := fun _ =>
  ⟨rfl, fun hf => exec_faulted hf nofun, fun hf hm => exec_not_admitted hf (beq_eq_false_iff_ne.2 hm),
    exec_eend_closes⟩

/-- Settles O40: EBEG empties OUT, each ENC appends its code, by induction on the bytes, and EEND keeps OUT. -/
theorem encodeSessionConcatenatesCodes : Obligations.EncodeSessionConcatenatesCodes := by
  intro s bs hf hp hm
  have hopen := exec_ebeg_opens hf hp hm
  constructor
  · intro hcodes hfit
    have hencs := execAll_encs (s := { s with out := [], mode := .enc }) hf rfl hcodes
      ((Nat.zero_add _).trans_le hfit)
    have hclose := exec_eend_closes (s := State.emitAll { s with out := [], mode := .enc } (encodedChars s.code bs))
      hf rfl
    rw [encodeSession, execAll_cons hopen, execAll_append _ _ hencs]
    refine (execAll_cons hclose _).trans ?_
    rw [← hm]
    rfl
  · intro t h ht
    rw [encodeSession, execAll_cons hopen] at h
    obtain ⟨-, rfl⟩ := execAll_encs_eend_no_fault h ht
    exact ⟨rfl, encodedChars_length s.code bs, fun x => eq_char_of_mem_encodedChars⟩

/-- Settles O41: neither the dispatch nor the three bodies read what the other tree replaces. -/
theorem encoderIgnoresTheTree : Obligations.EncoderIgnoresTheTree := by
  rintro i (rfl | ⟨b, rfl⟩ | rfl) s t node root cur valid h
  · rw [exec_ebeg] at h ⊢
    exact dispatch_overTree node root cur valid (fun t ht => by cases ht; rfl) h
  · exact dispatch_overTree node root cur valid (fun t => encodeByte_overTree node root cur valid) h
  · rw [exec_eend] at h ⊢
    exact dispatch_overTree node root cur valid (fun t ht => by cases ht; rfl) h

end Sys2Proof.Machine
end

section
/-! SUPPORT. DBEG, DEC and DEND case by case (44_decoder.md R165 to R168). -/

namespace Sys2Proof.Machine

variable {s : State} {c : Byte} {d : Bool}

theorem exec_dec_runs (hf : s.fault = .none) (hm : s.mode = .dec) (c : Byte) :
    exec (.dec c) s = decodeChar c s :=
  (exec_dec s c).trans (dispatch_admitted hf (beq_iff_eq.2 hm))

/-! The body of DEC (R166): the three MALFORMED tests, then the walk -/

/-- No code bit, no tree to walk, or a walk that is on a leaf already. -/
theorem decodeChar_malformed
    (h : charBit c = none ∨ s.rootValid = false ∨ (s.nodeAt s.cur).isLeaf = true) :
    decodeChar c s = .next (s.raise .malformed (encode (.dec c))) := by
  cases hc : charBit c with
  | none => rw [decodeChar, hc]
  | some d =>
    obtain h | hv | hl := h
    · rw [hc] at h
      cases h
    · simp [decodeChar, hc, hv]
    · simp [decodeChar, hc, hl]

theorem decodeChar_walks (hc : charBit c = some d) (hv : s.rootValid = true)
    (hi : (s.nodeAt s.cur).isLeaf = false) : decodeChar c s = walkEdge (encode (.dec c)) d s := by
  simp [decodeChar, hc, hv, hi]

variable {w : Word} {n : Idx}

theorem fits_eq_false {k : Nat} (h : s.outCap < s.outLen + k) : s.fits k = false :=
  decide_eq_false (Nat.not_le.2 h)

theorem walkEdge_full (hn : (s.nodeAt s.cur).child d = n) (hl : (s.nodeAt n).isLeaf = true)
    (hfull : s.outCap < s.outLen + 1) : walkEdge w d s = .next (s.raise .resource w) := by
  simp [walkEdge, hn, hl, fits_eq_false hfull]

theorem walkEdge_emits (hn : (s.nodeAt s.cur).child d = n) (hl : (s.nodeAt n).isLeaf = true)
    (hfit : s.outLen + 1 ≤ s.outCap) :
    walkEdge w d s = .next { s.emitAll [(s.nodeAt n).sym] with cur := s.root } := by
  simp [walkEdge, hn, hl, fits_iff, hfit]

theorem walkEdge_moves (hn : (s.nodeAt s.cur).child d = n) (hl : (s.nodeAt n).isLeaf = false) :
    walkEdge w d s = .next { s with cur := n } := by
  simp [walkEdge, hn, hl]

/-- DEC of a code bit, in the tree and off its leaves, walks the edge of that bit. -/
theorem exec_dec_walks (hf : s.fault = .none) (hm : s.mode = .dec) (hc : charBit c = some d)
    (hv : s.rootValid = true) (hi : (s.nodeAt s.cur).isLeaf = false) :
    exec (.dec c) s = walkEdge (encode (.dec c)) d s :=
  (exec_dec_runs hf hm c).trans (decodeChar_walks hc hv hi)

/-- The node DEC reaches is the child along the bit its character spells (R88, R166). -/
theorem exists_charBit_child {x : Node} (h : (c = Config.char0 ∧ n = x.left) ∨ (c = Config.char1 ∧ n = x.right)) :
    ∃ d, charBit c = some d ∧ x.child d = n := by
  obtain ⟨rfl, rfl⟩ | ⟨rfl, rfl⟩ := h
  · exact ⟨false, rfl, rfl⟩
  · exact ⟨true, rfl, rfl⟩

/-! The body of DEND (R167): the single-leaf tree, a tree whose root is internal; no tree is
`endDecode_of_no_tree` -/

theorem truncAtEnd_of_tree (hv : s.rootValid = true) : truncAtEnd s = decide (s.cur ≠ s.root) := by
  rw [truncAtEnd, hv, Bool.true_and, Bool.eq_iff_iff, bne_iff_ne, decide_eq_true_iff]

theorem endDecode_leaf_full (hv : s.rootValid = true) (hl : (s.nodeAt s.root).isLeaf = true)
    (hfull : s.outCap < s.outLen + (s.nodeAt s.root).weight.toNat) :
    endDecode s = .next (s.raise .resource (encode .dend)) := by
  simp [endDecode, endFits, singleLeaf, hv, hl, fits_eq_false hfull]

theorem endDecode_leaf_fits (hv : s.rootValid = true) (hl : (s.nodeAt s.root).isLeaf = true)
    (hfit : s.outLen + (s.nodeAt s.root).weight.toNat ≤ s.outCap) :
    endDecode s = .next { s with
      out := s.out ++ List.replicate (s.nodeAt s.root).weight.toNat (s.nodeAt s.root).sym,
      trunc := decide (s.cur ≠ s.root), mode := .none } := by
  rw [← truncAtEnd_of_tree hv]
  simp [endDecode, endFits, endBytes, singleLeaf, hv, hl, fits_iff, hfit, State.emitAll]

theorem endDecode_internal (hv : s.rootValid = true) (hl : (s.nodeAt s.root).isLeaf = false) :
    endDecode s = .next { s with trunc := decide (s.cur ≠ s.root), mode := .none } := by
  rw [← truncAtEnd_of_tree hv]
  simp [endDecode, endFits, endBytes, singleLeaf, hl, State.emitAll]

end Sys2Proof.Machine
end

section
/-! CLAIMS. DBEG, DEC and DEND, and a decode session with no tree (44_decoder.md R165 to R168, R171). -/

namespace Sys2Proof.Machine

/-- Settles O42: the dispatch of R100, and the body where READY has no session open. -/
theorem dbegOpensADecodeSession : Obligations.DbegOpensADecodeSession := fun _ =>
  ⟨rfl, fun hf => exec_faulted hf nofun, fun hf hn => exec_not_admitted hf (by simpa [admitted] using hn),
    exec_dbeg_opens⟩

/-- Settles O43: the dispatch of R100, then MALFORMED or one edge of the walk. -/
theorem decWalksOneEdge : Obligations.DecWalksOneEdge := by
  intro s c
  refine ⟨encode_eq_or (.dec c), fun hf => exec_faulted hf nofun,
    fun hf hm => exec_not_admitted hf (beq_eq_false_iff_ne.2 hm), ?_, ?_⟩
  · intro hf hm hbad
    exact (exec_dec_runs hf hm c).trans (decodeChar_malformed (hbad.imp_left (charBit_eq_none c).2))
  · intro n hf hm hv hi hn
    obtain ⟨d, hc, hn⟩ := exists_charBit_child hn
    have hwalk := exec_dec_walks hf hm hc hv hi
    exact ⟨fun hl hfull => hwalk.trans (walkEdge_full hn hl hfull),
      fun hl hfit => hwalk.trans (walkEdge_emits hn hl hfit), fun hl => hwalk.trans (walkEdge_moves hn hl)⟩

/-- Settles O44: the dispatch of R100, then the body by the kind of tree. -/
theorem dendEndsTheDecodeSession : Obligations.DendEndsTheDecodeSession := by
  intro s
  refine ⟨rfl, fun hf => exec_faulted hf nofun, fun hf hm => exec_not_admitted hf (beq_eq_false_iff_ne.2 hm),
    ?_, ?_, ?_, ?_⟩
  · intro hf hm hv hl hfull
    exact (exec_dend_runs hf hm).trans (endDecode_leaf_full hv hl hfull)
  · intro hf hm hv hl hfit
    exact (exec_dend_runs hf hm).trans (endDecode_leaf_fits hv hl hfit)
  · intro hf hm hv hl
    exact (exec_dend_runs hf hm).trans (endDecode_internal hv hl)
  · intro hf hm hv
    exact (exec_dend_runs hf hm).trans (endDecode_of_no_tree hv)

/-- Settles O45: DBEG opens the session, in which no character passes the test for a tree. -/
theorem noTreeDecodesNothing : Obligations.NoTreeDecodesNothing := by
  intro s hf hp hm hv
  refine ⟨execAll_decodeSession_nil hf hp hm hv, fun c => ?_⟩
  have hdec := (exec_dec_runs (s := { s with out := [], cur := s.root, trunc := false, mode := .dec }) hf rfl c).trans
    (decodeChar_malformed (.inr (.inl hv)))
  exact (execAll_cons (exec_dbeg_opens hf hp hm) _).trans (execAll_cons hdec _)

end Sys2Proof.Machine
end

section
/-! SUPPORT. Counting a whole byte sequence (40_control_and_frequency.md R104, R105) and the total it leaves
(41_tree_builder.md R129). -/

namespace Sys2Proof.Machine

variable {s : State} {freq : Table Weight} {b : Byte} {bs : List Byte}

/-- CNT b in IDLE, where b is filtered or its count is not full (R104). -/
theorem exec_cnt_counts (hf : s.fault = .none) (hp : s.phase = .idle)
    (hw : b ≠ Config.newline → (Table.get s.freq b).toNat ≠ Config.wmax) :
    exec (.cnt b) s = .next { s with freq := countedFreq s.freq b } := by
  rw [exec_cnt_idle hf hp]
  by_cases hb : b = Config.newline
  · subst hb
    exact countByte_newline s
  · rw [countByte_counts hb (hw hb), countedFreq, if_neg (mt (isFiltered_iff b).1 hb)]

/-- The counts of `freq` have room for the bytes of `bs` (R104). -/
def CountsFit (freq : Table Weight) (bs : List Byte) : Prop :=
  ∀ c, (Table.get freq c).toNat + (filterBytes bs).count c ≤ Config.wmax

theorem CountsFit.head (h : CountsFit freq (b :: bs)) (hb : b ≠ Config.newline) :
    (Table.get freq b).toNat ≠ Config.wmax := by
  have hroom := h b
  rw [filterBytes_cons hb, List.count_cons_self] at hroom
  omega

/-- A count goes up by one with its byte, unless that is filtered. -/
theorem CountsFit.toNat_get_countedFreq (h : CountsFit freq (b :: bs)) (c : Byte) :
    (Table.get (countedFreq freq b) c).toNat + (filterBytes bs).count c =
      (Table.get freq c).toNat + (filterBytes (b :: bs)).count c := by
  rw [get_countedFreq]
  by_cases hb : b = Config.newline
  · subst hb
    rw [if_neg fun h => h.2 rfl]
    rfl
  · rw [filterBytes_cons hb]
    by_cases hc : c = b
    · subst hc
      rw [if_pos ⟨rfl, hb⟩, toNat_count_add_one (h.head hb), List.count_cons_self]
      omega
    · rw [if_neg fun h => hc h.1, List.count_cons_of_ne (Ne.symm hc)]

theorem CountsFit.tail (h : CountsFit freq (b :: bs)) : CountsFit (countedFreq freq b) bs :=
  fun c => (h.toNat_get_countedFreq c).trans_le (h c)

theorem CountsFit.toNat_get_foldl (h : CountsFit freq bs) (c : Byte) :
    (Table.get (bs.foldl countedFreq freq) c).toNat = (Table.get freq c).toNat + (filterBytes bs).count c := by
  induction bs generalizing freq with
  | nil => rfl
  | cons b bs ih => exact (ih h.tail).trans (h.toNat_get_countedFreq c)

/-- A sequence of CNT in IDLE that overflows no count raises no fault (R105). -/
theorem execAll_countSession (hf : s.fault = .none) (hp : s.phase = .idle) (h : CountsFit s.freq bs) :
    execAll (countSession bs) s = .next { s with freq := bs.foldl countedFreq s.freq } := by
  induction bs generalizing s with
  | nil => rfl
  | cons b bs ih =>
    exact (execAll_cons (exec_cnt_counts hf hp h.head) _).trans
      (ih (s := { s with freq := countedFreq s.freq b }) hf hp h.tail)

/-! Counting from the empty table -/

theorem countsFit_of_zero (h0 : ∀ c, Table.get freq c = 0#32) (hlen : (filterBytes bs).length ≤ Config.wmax) :
    CountsFit freq bs := by
  intro c
  rw [h0 c]
  exact (Nat.zero_add _).trans_le (List.count_le_length.trans hlen)

/-- Counted from 0, the count of a byte is the number of its occurrences that are not filtered. -/
theorem toNat_get_counted (h0 : ∀ c, Table.get freq c = 0#32) (hlen : (filterBytes bs).length ≤ Config.wmax)
    (c : Byte) : (Table.get (bs.foldl countedFreq freq) c).toNat = (filterBytes bs).count c := by
  rw [(countsFit_of_zero h0 hlen).toNat_get_foldl, h0 c]
  exact Nat.zero_add _

/-- Counted from 0, the total is the number of bytes that are not filtered (R129). -/
theorem totalCount_counted (h0 : ∀ c, Table.get freq c = 0#32) (hlen : (filterBytes bs).length ≤ Config.wmax) :
    totalCount (bs.foldl countedFreq freq) = (filterBytes bs).length := by
  have hcounts : totalCount (bs.foldl countedFreq freq) = (allBytes.map fun c => (filterBytes bs).count c).sum :=
    congrArg List.sum (List.map_congr_left fun c _ => toNat_get_counted h0 hlen c)
  have hmem : ∀ c ∈ (filterBytes bs : Multiset Byte), c ∈ allBytes.toFinset :=
    fun c _ => List.mem_toFinset.2 (mem_allBytes c)
  rw [hcounts, ← List.sum_toFinset _ (allBytes_sorted.imp BitVec.ne_of_lt), ← Multiset.coe_card,
    ← Multiset.sum_count_eq_card hmem]
  simp only [Multiset.coe_count]

theorem counted_ne_zero (h0 : ∀ c, Table.get freq c = 0#32) (hlen : (filterBytes bs).length ≤ Config.wmax)
    (hb : b ∈ filterBytes bs) : Table.get (bs.foldl countedFreq freq) b ≠ 0#32 := by
  intro hzero
  have hcount := toNat_get_counted h0 hlen b
  rw [hzero] at hcount
  exact (List.count_pos_iff.2 hb).ne hcount

end Sys2Proof.Machine
end

section
/-! SUPPORT. GEN on the tree of the counts: the walk stores root-to-leaf paths, and one for each byte counted
(42_code_table.md R140 to R143). -/

namespace Sys2Proof.Machine

variable {node : List Node} {n : Idx} {path : Code} {s : State} {t t' u : Table (Option Code)}

@[simp] theorem Node.child_false (x : Node) : x.child false = x.left := rfl

@[simp] theorem Node.child_true (x : Node) : x.child true = x.right := rfl

theorem walk_leaf {k : Nat} (hl : (nodeRead node n).isLeaf = true) :
    walk node (k + 1) n path t = some (Table.put t (nodeRead node n).sym (some path)) := by
  rw [walk, if_pos hl]

theorem walk_internal {k : Nat} (hl : (nodeRead node n).isLeaf = false) :
    walk node (k + 1) n path t =
      (walk node k ((nodeRead node n).child false) (path ++ [false]) t).bind
        (walk node k ((nodeRead node n).child true) (path ++ [true])) := by
  rw [walk, if_neg (by simp [hl]), Node.child_false, Node.child_true]
  cases walk node k (nodeRead node n).left (path ++ [false]) t <;> rfl

/-- `t'` is `t` with the paths from node `n`, put after `path`, stored for the bytes on the leaves below it. -/
def StoresPaths (node : List Node) (n : Idx) (path : Code) (t t' : Table (Option Code)) : Prop :=
  ∀ b, (∃ p, leafAt node n p = some b ∧ Table.get t' b = some (path ++ p)) ∨
    ((∀ p, leafAt node n p ≠ some b) ∧ Table.get t' b = Table.get t b)

theorem storesPaths_leaf (hl : (nodeRead node n).isLeaf = true) :
    StoresPaths node n path t (Table.put t (nodeRead node n).sym (some path)) := by
  intro b
  by_cases hb : b = (nodeRead node n).sym
  · subst hb
    exact .inl ⟨[], leafAt_nil_eq_some.2 ⟨hl, rfl⟩, by rw [Table.get_put_same, List.append_nil]⟩
  · refine .inr ⟨fun p hp => ?_, Table.get_put_other _ _ hb⟩
    exact hb (leafAt_eq_of_prefix List.nil_prefix (leafAt_nil_eq_some.2 ⟨hl, rfl⟩) hp).symm

/-- Both subtrees in turn, the left one first (R141). -/
theorem StoresPaths.internal (hl : (nodeRead node n).isLeaf = false)
    (hleft : StoresPaths node (nodeRead node n).left (path ++ [false]) t u)
    (hright : StoresPaths node (nodeRead node n).right (path ++ [true]) u t') : StoresPaths node n path t t' := by
  intro b
  obtain ⟨p, hp, hget⟩ | ⟨hnoRight, hsame⟩ := hright b
  · exact .inl ⟨true :: p, leafAt_cons_eq_some.2 ⟨hl, hp⟩, by rw [hget, List.append_assoc]; rfl⟩
  · rw [hsame]
    obtain ⟨p, hp, hget⟩ | ⟨hnoLeft, hsame⟩ := hleft b
    · exact .inl ⟨false :: p, leafAt_cons_eq_some.2 ⟨hl, hp⟩, by rw [hget, List.append_assoc]; rfl⟩
    · refine .inr ⟨fun p hp => ?_, hsame⟩
      cases p with
      | nil =>
        rw [(leafAt_nil_eq_some.1 hp).1] at hl
        cases hl
      | cons d p =>
        have hchild := (leafAt_cons_eq_some.1 hp).2
        cases d
        · exact hnoLeft p hchild
        · exact hnoRight p hchild

/-- A path leads from the root to every leaf (R38). -/
theorem TreeShape.exists_path_of_hasLeaf (h : TreeShape s) (hroot : s.root.toNat + 1 = s.nnode) {b : Byte}
    (hb : s.HasLeaf b) : ∃ q, leafAt s.node s.root q = some b := by
  obtain ⟨k, x, hx, hl, rfl⟩ := hb
  have hk : k < s.nnode := (List.getElem?_eq_some_iff.1 hx).1
  obtain ⟨i, rfl⟩ : ∃ i : Idx, i.toNat = k := exists_idx (by omega)
  have hleaf : leafAt s.node i [] = some x.sym := by
    rw [leafAt_nil_eq_some, nodeRead_of_getElem? hx]
    exact ⟨hl, rfl⟩
  exact h.exists_path_through hroot hk hleaf

/-- The walk completes when the path register has room for the longest path below the node (R141, R143). -/
theorem TreeShape.exists_walk (h : TreeShape s) {k : Nat} (hn : n.toNat < s.nnode)
    (hk : n.toNat + 1 - s.nleaf.toNat < k) :
    ∃ t', walk s.node k n path t = some t' ∧ StoresPaths s.node n path t t' := by
  induction k generalizing n path t with
  | zero => cases hk
  | succ k ih =>
    cases hl : (nodeRead s.node n).isLeaf with
    | true => exact ⟨_, walk_leaf hl, storesPaths_leaf hl⟩
    | false =>
      have hx := getElem?_of_lt hn
      have hlt := h.child_lt hx hl
      have hinner : ¬ n.toNat < s.nleaf.toNat := by
        rw [← h.isLeaf_iff hx, hl]
        decide
      have hbelow : ∀ d path t, ∃ t', walk s.node k ((nodeRead s.node n).child d) path t = some t' ∧
          StoresPaths s.node ((nodeRead s.node n).child d) path t t' := fun d path t => by
        have := hlt d
        exact ih (by omega) (by omega)
      obtain ⟨u, hwalkLeft, hleft⟩ := hbelow false (path ++ [false]) t
      obtain ⟨t', hwalkRight, hright⟩ := hbelow true (path ++ [true]) u
      exact ⟨t', by rw [walk_internal hl, hwalkLeft, Option.bind_some, hwalkRight], hleft.internal hl hright⟩

/-- GEN's own case for a root that is a leaf does what the walk does there (R142). -/
theorem generate_eq_walk (hv : s.rootValid = true) :
    generate s = walk s.node (Config.codeLenMax + 1) s.root [] emptyCodes := by
  cases hl : (s.nodeAt s.root).isLeaf with
  | true => rw [generate_of_leaf_root hv hl]; exact (walk_leaf hl).symm
  | false => rw [generate, if_pos hv, if_neg (by simp [hl])]

/-- The codes are root-to-leaf paths, and every byte counted has one (R141, R144). -/
structure State.CodedBy (s : State) (c : Table (Option Code)) : Prop where
  path : ∀ b p, Table.get c b = some p → s.rootValid = true ∧ leafAt s.node s.root p = some b
  coded : ∀ b, Table.get s.freq b ≠ 0#32 → Table.get c b ≠ none

/-- GEN completes on the tree of the counts (R140, R143). -/
theorem TreeShape.exists_generate (h : TreeShape s) (hb : Bookkeeping s) (hp : s.phase ≠ .idle) :
    ∃ c, generate s = some c ∧ s.CodedBy c := by
  cases hv : s.rootValid with
  | false =>
    refine ⟨_, generate_of_no_tree hv, fun b p hc => ?_, fun b hcount => ?_⟩
    · rw [emptyCodes, Table.get_replicate] at hc
      cases hc
    · obtain ⟨k, x, hk, -⟩ := h.leaf_all hp b hcount
      rw [hb.root_valid.2 ⟨hp, Nat.one_le_of_lt hk⟩] at hv
      cases hv
  | true =>
    have hlast := hb.root_last hv
    have hroot := Nat.lt_of_succ_le hlast.le
    have hcount := hb.node_count
    have hle := hb.leaves_bound
    obtain ⟨c, hwalk, hstores⟩ := h.exists_walk (k := Config.codeLenMax + 1) (path := []) (t := emptyCodes) hroot
      (by rw [Config.codeLenMax]; omega)
    refine ⟨c, (generate_eq_walk hv).trans hwalk, fun b p hc => ⟨hv, ?_⟩, fun b hcount => ?_⟩
    · obtain ⟨q, hq, hget⟩ | ⟨-, hget⟩ := hstores b
      · rw [hc] at hget
        cases hget
        exact hq
      · rw [hc, emptyCodes, Table.get_replicate] at hget
        cases hget
    · have hpos : 1 ≤ (Table.get s.freq b).toNat :=
        Nat.one_le_iff_ne_zero.2 fun h0 => hcount (BitVec.eq_of_toNat_eq h0)
      obtain ⟨q, hq⟩ := h.exists_path_of_hasLeaf hlast ((h.hasLeaf_iff_counted hp).2 hpos)
      obtain ⟨p, -, hget⟩ | ⟨hnone, -⟩ := hstores b
      · simp [hget]
      · exact absurd hq (hnone q)

end Sys2Proof.Machine
end

section
/-! SUPPORT. The block after BLD and GEN, and a decode session over what an encode session wrote
(43_encoder.md R153; 44_decoder.md R166 to R168, R172). -/

namespace Sys2Proof.Machine

variable {s t : State} {b : Byte} {p : Code} {bs : List Byte}

/-! From reset to READY -/

theorem State.atReset.bookkeeping (h : s.atReset) : Bookkeeping s where
  newline_uncounted := h.freq _
  queue_empty := List.length_eq_zero_iff.1 h.qlen
  leaves_bound := by simp [h.nleaf]
  node_count := by simp [h.nleaf, h.nnode]
  output_fits := by simp [h.out_len]
  root_valid := by simp [h.root_valid, h.phase]
  root_index := by simp [h.root_valid, h.root, Config.nil]
  idle_no_leaf _ := h.nleaf
  session_ready hm := absurd h.mode hm
  no_fault_word _ := h.fault_cmd
  fault_no_output hf := absurd h.fault hf

theorem Bookkeeping.after_execAll {is : List Instr} (h : Bookkeeping s) (he : execAll is s = .next t) :
    Bookkeeping t := by
  induction is generalizing s with
  | nil => cases he; exact h
  | cons i is ih =>
    obtain ⟨m, hi, he⟩ := execAll_cons_next he
    exact ih (h.after_exec hi) he

/-- A block whose tree and code table are built, with no session open. -/
structure State.Coding (s : State) : Prop where
  fault : s.fault = .none
  phase : s.phase = .ready
  mode : s.mode = .none
  codes : s.CodedBy s.code
  root_weight : s.rootValid = true → (s.nodeAt s.root).weight.toNat = totalCount s.freq

/-- BLD and GEN in IDLE, the total within WMAX. -/
theorem execAll_tableSession_coding (hb : Bookkeeping s) (hf : s.fault = .none) (hp : s.phase = .idle)
    (ht : totalCount s.freq ≤ Config.wmax) :
    ∃ t, execAll tableSession s = .next t ∧ t.Coding ∧ t.freq = s.freq ∧ t.outCap = s.outCap := by
  have hbld := exec_bld_builds hf hp ht
  have hshape := treeShape_withTree ht
  rw [withTree_buildTree] at hbld hshape
  obtain ⟨c, hgen, hcodes⟩ := hshape.exists_generate (hb.after_exec hbld) nofun
  exact ⟨_, execAll_tableSession hbld hf rfl hgen,
    { fault := hf
      phase := rfl
      mode := hb.mode_of_not_ready (by simp [hp])
      codes := ⟨hcodes.path, hcodes.coded⟩
      root_weight := hshape.root_weight }, rfl, rfl⟩

/-! The characters of a code lead DEC to its leaf -/

theorem leafAt_of_isLeaf {node : List Node} {i : Idx} (hl : (nodeRead node i).isLeaf = true)
    (hp : leafAt node i p = some b) : p = [] ∧ (nodeRead node i).sym = b := by
  cases p with
  | nil => exact ⟨rfl, (leafAt_nil_eq_some.1 hp).2⟩
  | cons d p =>
    rw [(leafAt_cons_eq_some.1 hp).1] at hl
    cases hl

/-- The characters of a path from an internal node, handed over there, emit the byte of its leaf (R166). -/
theorem execAll_decs_path (hf : s.fault = .none) (hm : s.mode = .dec) (hv : s.rootValid = true)
    (hi : (s.nodeAt s.cur).isLeaf = false) (hfit : s.outLen + 1 ≤ s.outCap)
    (hp : leafAt s.node s.cur p = some b) :
    execAll ((codeChars p).map .dec) s = .next { s.emitAll [b] with cur := s.root } := by
  induction p generalizing s with
  | nil =>
    rw [State.nodeAt, (leafAt_nil_eq_some.1 hp).1] at hi
    cases hi
  | cons d p ih =>
    obtain ⟨-, hp⟩ := leafAt_cons_eq_some.1 hp
    have hwalk := exec_dec_walks hf hm (charBit_bitChar d) hv hi
    cases hl : (s.nodeAt ((s.nodeAt s.cur).child d)).isLeaf with
    | true =>
      obtain ⟨rfl, rfl⟩ := leafAt_of_isLeaf hl hp
      exact execAll_cons (hwalk.trans (walkEdge_emits rfl hl hfit)) _
    | false =>
      exact (execAll_cons (hwalk.trans (walkEdge_moves rfl hl)) _).trans
        (ih (s := { s with cur := (s.nodeAt s.cur).child d }) hf hm hv hl hfit hp)

/-- At the root of a tree whose root is internal, encoded bytes are decoded one after the other (R168). -/
theorem execAll_decs_encoded (hf : s.fault = .none) (hm : s.mode = .dec) (hv : s.rootValid = true)
    (hl : (s.nodeAt s.root).isLeaf = false) (hcur : s.cur = s.root)
    (hcodes : ∀ b ∈ filterBytes bs, ∃ p, Table.get s.code b = some p ∧ leafAt s.node s.root p = some b)
    (hfit : s.outLen + (filterBytes bs).length ≤ s.outCap) :
    execAll ((encodedChars s.code bs).map .dec) s = .next (s.emitAll (filterBytes bs)) := by
  induction bs generalizing s with
  | nil => exact congrArg _ s.emitAll_nil.symm
  | cons b bs ih =>
    by_cases hb : b = Config.newline
    · subst hb
      exact ih hf hm hv hl hcur hcodes hfit
    · rw [filterBytes_cons hb] at hcodes hfit ⊢
      obtain ⟨⟨p, hc, hp⟩, hcodes⟩ := List.forall_mem_cons.1 hcodes
      rw [List.length_cons] at hfit
      have hfirst : execAll ((codeChars p).map .dec) s = .next (s.emitAll [b]) := by
        rw [execAll_decs_path hf hm hv (hcur ▸ hl) (by omega) (hcur ▸ hp), ← hcur]
        rfl
      have hrest := ih (s := s.emitAll [b]) hf hm hv hl hcur hcodes
        (by rw [State.emitAll_outLen, State.emitAll_outCap, List.length_singleton]; omega)
      rw [encodedChars_cons hb hc, List.map_append, execAll_append _ _ hfirst]
      rwa [State.emitAll_emitAll] at hrest

/-! A decode session over encoded bytes -/

theorem encodedChars_eq_nil {code : Table (Option Code)} (h : ∀ b ∈ filterBytes bs, Table.get code b = some []) :
    encodedChars code bs = [] :=
  List.flatMap_eq_nil_iff.2 fun b hb => by rw [h b hb]; rfl

/-- A decode session that stands at the root, `out` emitted so far (R165, R169). -/
def State.decoding (s : State) (out : List Byte) : State :=
  { s with out := out, cur := s.root, trunc := false, mode := .dec }

/-- The end of a decode session that stands at the root, `out` emitted (R167). -/
def State.decoded (s : State) (out : List Byte) : State :=
  { s with out := out, cur := s.root, trunc := false, mode := .none }

theorem State.decoding_at_root (s : State) (out : List Byte) :
    decide ((s.decoding out).cur ≠ (s.decoding out).root) = false :=
  decide_eq_false (not_not.2 rfl)

/-- In the single-leaf tree DEND emits the byte as often as it weighs (R168). -/
theorem exec_dend_lone (hf : s.fault = .none) (hv : s.rootValid = true) (hl : (s.nodeAt s.root).isLeaf = true)
    (hfit : (s.nodeAt s.root).weight.toNat ≤ s.outCap) :
    exec .dend (s.decoding []) =
      .next (s.decoded (List.replicate (s.nodeAt s.root).weight.toNat (s.nodeAt s.root).sym)) := by
  have hend := endDecode_leaf_fits (s := s.decoding []) hv hl ((Nat.zero_add _).trans_le hfit)
  rw [State.decoding_at_root] at hend
  exact (exec_dend_runs (s := s.decoding []) hf rfl).trans hend

theorem exec_dend_internal (hf : s.fault = .none) (hv : s.rootValid = true) (hl : (s.nodeAt s.root).isLeaf = false)
    (out : List Byte) : exec .dend (s.decoding out) = .next (s.decoded out) := by
  have hend := endDecode_internal (s := s.decoding out) hv hl
  rw [State.decoding_at_root] at hend
  exact (exec_dend_runs (s := s.decoding out) hf rfl).trans hend

/-- With an internal root each code brings the decoder back to the root, where DEND finds it (R169, R170). -/
theorem execAll_decodeSession_internal (hf : s.fault = .none) (hp : s.phase = .ready) (hm : s.mode = .none)
    (hv : s.rootValid = true) (hl : (s.nodeAt s.root).isLeaf = false)
    (hcodes : ∀ b ∈ filterBytes bs, ∃ p, Table.get s.code b = some p ∧ leafAt s.node s.root p = some b)
    (hfit : (filterBytes bs).length ≤ s.outCap) :
    execAll (decodeSession (encodedChars s.code bs)) s = .next (s.decoded (filterBytes bs)) := by
  have hdecs : execAll ((encodedChars s.code bs).map .dec) (s.decoding []) = .next (s.decoding (filterBytes bs)) :=
    execAll_decs_encoded (s := s.decoding []) hf rfl hv hl rfl hcodes ((Nat.zero_add _).trans_le hfit)
  rw [decodeSession, execAll_cons (exec_dbeg_opens hf hp hm)]
  exact (execAll_append _ _ hdecs).trans (execAll_cons (exec_dend_internal hf hv hl _) _)

/-- Every byte counted has a code, a path from the root of the tree to its leaf (R144). -/
theorem State.CodedBy.exists_path {c : Table (Option Code)} (h : s.CodedBy c) (hb : Table.get s.freq b ≠ 0#32) :
    ∃ p, Table.get c b = some p ∧ s.rootValid = true ∧ leafAt s.node s.root p = some b := by
  obtain ⟨p, hc⟩ := Option.ne_none_iff_exists'.1 (h.coded b hb)
  exact ⟨p, hc, h.path b p hc⟩

/-- DBEG, the encoded bytes as DEC operands, DEND, by the kind of tree (R171, R168, R166). -/
theorem State.Coding.execAll_decodeSession (h : s.Coding)
    (hcounted : ∀ b ∈ filterBytes bs, Table.get s.freq b ≠ 0#32)
    (htotal : totalCount s.freq = (filterBytes bs).length) (hfit : (filterBytes bs).length ≤ s.outCap) :
    execAll (decodeSession (encodedChars s.code bs)) s = .next (s.decoded (filterBytes bs)) := by
  have hcodes := fun b hb => h.codes.exists_path (hcounted b hb)
  obtain hv | hv := Bool.eq_false_or_eq_true s.rootValid
  · obtain hl | hl := Bool.eq_false_or_eq_true (s.nodeAt s.root).isLeaf
    · have hlone : ∀ b ∈ filterBytes bs, Table.get s.code b = some [] ∧ b = (s.nodeAt s.root).sym := by
        intro b hb
        obtain ⟨p, hc, -, hp⟩ := hcodes b hb
        obtain ⟨rfl, hsym⟩ := leafAt_of_isLeaf hl hp
        exact ⟨hc, hsym.symm⟩
      have hweight := (h.root_weight hv).trans htotal
      have hbytes : filterBytes bs = List.replicate (s.nodeAt s.root).weight.toNat (s.nodeAt s.root).sym :=
        List.eq_replicate_iff.2 ⟨hweight.symm, fun b hb => (hlone b hb).2⟩
      rw [encodedChars_eq_nil fun b hb => (hlone b hb).1, hbytes]
      exact (execAll_cons (exec_dbeg_opens h.fault h.phase h.mode) _).trans
        (execAll_cons (exec_dend_lone h.fault hv hl (hweight.trans_le hfit)) _)
    · exact execAll_decodeSession_internal h.fault h.phase h.mode hv hl
        (fun b hb => (hcodes b hb).imp fun _ hp => ⟨hp.1, hp.2.2⟩) hfit
  · have hnone : filterBytes bs = [] := List.eq_nil_iff_forall_not_mem.2 fun b hb => by
      obtain ⟨p, -, hv', -⟩ := hcodes b hb
      rw [hv] at hv'
      cases hv'
    rw [encodedChars, hnone]
    exact execAll_decodeSession_nil h.fault h.phase h.mode hv

end Sys2Proof.Machine
end

section
/-! CLAIMS. The round trip (44_decoder.md R172). -/

namespace Sys2Proof.Machine

/-- Settles O49: the counts leave a tree with a path for every byte counted; the encoder writes those paths one after
the other, and the decoder, led down each of them, comes back to the root. -/
theorem roundTripReturnsTheInput : Obligations.RoundTripReturnsTheInput := by
  intro s S hr hlen
  have hcount := execAll_countSession hr.fault hr.phase (countsFit_of_zero hr.freq hlen)
  have htotal := totalCount_counted hr.freq hlen
  obtain ⟨t, htable, ht, hfreq, hcap⟩ := execAll_tableSession_coding (hr.bookkeeping.after_execAll hcount) hr.fault
    hr.phase (htotal.trans_le hlen)
  refine ⟨t, (execAll_append _ _ hcount).trans htable, ht.fault, fun hchars hbytes => ?_⟩
  rw [← hcap] at hchars hbytes
  have hcounted : ∀ b ∈ filterBytes S, Table.get t.freq b ≠ 0#32 := fun b hb => by
    rw [hfreq]
    exact counted_ne_zero hr.freq hlen hb
  have hencode := (encodeSessionConcatenatesCodes t S ht.fault ht.phase ht.mode).1
    (fun b hb => ht.codes.coded b (hcounted b hb)) hchars
  have hcoding : State.Coding { t with out := encodedChars t.code S } :=
    { ht with codes := ⟨ht.codes.path, ht.codes.coded⟩ }
  exact ⟨_, hencode, ht.fault, _,
    hcoding.execAll_decodeSession hcounted ((congrArg totalCount hfreq).trans htotal) hbytes, ht.fault, rfl, rfl⟩

end Sys2Proof.Machine
end

section
/-! SUPPORT. Which words raise which fault, and what a faulted block keeps (60_exceptions.md R187 to R193). -/

namespace Sys2Proof.Machine

variable {w : Word} {i : Instr} {s t : State} {b c : Byte}

/-! One command word -/

theorem issue_of_decode_instr (hd : decode w = .instr i) (s : State) : issue w s = exec i s := by
  rw [issue, hd]

theorem rejectWord_faulted (hf : s.fault ≠ .none) : rejectWord w s = s :=
  if_pos ((faulted_iff s).2 hf)

theorem rejectWord_not_faulted (hf : s.fault = .none) : rejectWord w s = s.raise .illegalCmd w :=
  if_neg (mt (faulted_iff s).1 (not_not.2 hf))

/-- An answered word is a command that was run, or no command and rejected (R100). -/
theorem issue_next (h : issue w s = .next t) :
    (∃ y, decode w = .illegal y ∧ t = rejectWord w s) ∨ ∃ i, decode w = .instr i ∧ exec i s = .next t := by
  unfold issue at h
  split at h
  · next i hd => exact .inr ⟨i, hd, h⟩
  · next y hd => cases h; exact .inl ⟨y, hd, rfl⟩

/-- A word that leaves an unfaulted block faulted has made fault entry with itself (R191). -/
theorem issue_raises (hf : s.fault = .none) (h : issue w s = .next t) (ht : t.fault ≠ .none) :
    t = s.raise t.fault w := by
  obtain ⟨y, -, rfl⟩ | ⟨i, hd, he⟩ := issue_next h
  · rw [rejectWord_not_faulted hf, State.raise_fault]
  · obtain ⟨-, rfl⟩ | ⟨-, hs, -⟩ | ⟨-, -, f, -, rfl⟩ | ⟨-, -, heff⟩ := exec_next he
    · exact absurd rfl ht
    · exact absurd hf hs
    · rw [encode_of_decode_eq_instr hd, State.raise_fault]
    · exact absurd (heff.fault_eq.trans hf) ht

/-! Which part of the block raises a fault -/

/-- ILLEGAL_CMD comes from the admission table alone (R189 (b)). -/
theorem exec_fault_eq_illegalCmd_iff (hf : s.fault = .none) (h : exec i s = .next t) :
    t.fault = .illegalCmd ↔ admitted i s = false := by
  constructor
  · intro ht
    by_contra ha
    obtain hn | hm := exec_admitted_fault hf (eq_true_of_ne_false ha) h
    · rw [ht] at hn
      cases hn
    · exact illegalCmd_notMem_bodyFaults i (ht ▸ hm)
  · intro ha
    cases (exec_not_admitted hf ha).symm.trans h
    rfl

/-- A fault other than ILLEGAL_CMD comes from the body of an admitted command (R186 to R188). -/
theorem issue_fault_of_body (hf : s.fault = .none) (h : issue w s = .next t) (hn : t.fault ≠ .none)
    (hi : t.fault ≠ .illegalCmd) :
    ∃ i, decode w = .instr i ∧ exec i s = .next t ∧ admitted i s = true ∧ t.fault ∈ bodyFaults i := by
  obtain ⟨y, -, rfl⟩ | ⟨i, hd, he⟩ := issue_next h
  · rw [rejectWord_not_faulted hf] at hi
    exact absurd rfl hi
  · have ha := eq_true_of_ne_false (mt (exec_fault_eq_illegalCmd_iff hf he).2 hi)
    exact ⟨i, hd, he, ha, (exec_admitted_fault hf ha he).resolve_left hn⟩

theorem eq_enc_of_noSymbol_mem (h : .noSymbol ∈ bodyFaults i) : ∃ b, i = .enc b := by
  cases i with
  | enc b => exact ⟨b, rfl⟩
  | _ => simp [bodyFaults] at h

theorem eq_dec_of_malformed_mem (h : .malformed ∈ bodyFaults i) : ∃ c, i = .dec c := by
  cases i with
  | dec c => exact ⟨c, rfl⟩
  | _ => simp [bodyFaults] at h

/-! The one cause of NO_SYMBOL and the three of MALFORMED -/

/-- The body of ENC raises NO_SYMBOL at its table test alone (R151, R187). -/
theorem encodeByte_fault_eq_noSymbol_iff (hf : s.fault = .none) (h : encodeByte b s = .next t) :
    t.fault = .noSymbol ↔ b ≠ Config.newline ∧ Table.get s.code b = none := by
  by_cases hb : b = Config.newline
  · subst hb
    cases h
    simp [hf]
  · cases hc : Table.get s.code b with
    | none =>
      cases (encodeByte_noCode hb hc).symm.trans h
      simp [hb]
    | some p =>
      obtain hfit | hfull := le_or_gt (s.outLen + p.length) s.outCap
      · cases (encodeByte_fits hb hc hfit).symm.trans h
        simp [hf]
      · cases (encodeByte_full hb hc hfull).symm.trans h
        simp

/-- The body of DEC raises MALFORMED at its three tests and never in the walk (R166, R188). -/
theorem decodeChar_fault_eq_malformed_iff (hf : s.fault = .none) (h : decodeChar c s = .next t) :
    t.fault = .malformed ↔ charBit c = none ∨ s.rootValid = false ∨ (s.nodeAt s.cur).isLeaf = true := by
  by_cases hbad : charBit c = none ∨ s.rootValid = false ∨ (s.nodeAt s.cur).isLeaf = true
  · cases (decodeChar_malformed hbad).symm.trans h
    exact iff_of_true rfl hbad
  · refine iff_of_false ?_ hbad
    simp only [not_or, Bool.not_eq_false, Bool.not_eq_true] at hbad
    obtain ⟨hchar, hv, hi⟩ := hbad
    obtain ⟨d, hd⟩ := Option.ne_none_iff_exists'.1 hchar
    obtain ht | ht := walkEdge_fault ((decodeChar_walks hd hv hi).symm.trans h) <;> simp [ht, hf]

end Sys2Proof.Machine
end

section
/-! CLAIMS. The faults: what raises them, what they write, what ends them (60_exceptions.md R187 to R193). -/

namespace Sys2Proof.Machine

/-- Settles O16: every way into the faulted state is fault entry with the word at hand. -/
theorem faultsArePrecise : Obligations.FaultsArePrecise := by
  intro w s t hf h ht
  have hraise := issue_raises hf h ht
  exact ⟨congrArg State.faultCmd hraise, congrArg State.outLen hraise, congrArg State.mode hraise, rfl,
    (State.faultO_iff t).2 ht, hraise⟩

/-- Settles O17: the dispatch ignores the commands, the rejection ignores the other words. -/
theorem faultedBlockIgnoresWords : Obligations.FaultedBlockIgnoresWords := fun _ _ hf hw =>
  ⟨issue_faulted hf hw, rfl⟩

/-- Settles O18: of the things a step can be, a reset and CLR clear the block, and the rest leave it alone. -/
theorem faultIsLeftOnlyByClrOrReset : Obligations.FaultIsLeftOnlyByClrOrReset := by
  intro s t hf h
  have taken_faulted (rest : List HostInput) : (s.taken rest).fault ≠ .none := hf
  obtain ⟨-, rfl⟩ | ⟨rest, hh, rfl⟩ | ⟨w, rest, -, -, -, rfl⟩ | ⟨w, rest, i, hh, hd, he⟩ := step_next h
  case inl => exact ⟨fun ht => absurd ht hf, fun _ => rfl⟩
  case inr.inl => exact ⟨fun _ => ⟨(s.taken rest).cleared_atReset, rest, .inl hh⟩, absurd rfl⟩
  case inr.inr.inl =>
    rw [rejectWord_faulted (taken_faulted rest)]
    exact ⟨fun ht => absurd ht hf, fun _ => rfl⟩
  case inr.inr.inr =>
    by_cases hi : i = .clr
    · subst hi
      cases decode_eq_clr_iff.1 hd
      cases he
      exact ⟨fun _ => ⟨(s.taken rest).cleared_atReset, rest, .inr hh⟩, absurd rfl⟩
    · cases (exec_faulted (taken_faulted rest) hi).symm.trans he
      exact ⟨fun ht => absurd ht hf, fun _ => rfl⟩

/-- Settles O20: of all bodies only ENC's raises NO_SYMBOL, at its table test. -/
theorem noSymbolHasOneCause : Obligations.NoSymbolHasOneCause := by
  intro w s t hf h
  constructor
  · intro ht
    obtain ⟨i, hd, he, ha, hm⟩ := issue_fault_of_body hf h (by simp [ht]) (by simp [ht])
    obtain ⟨b, rfl⟩ := eq_enc_of_noSymbol_mem (ht ▸ hm)
    have hmode : s.mode = .enc := beq_iff_eq.1 ha
    rw [exec_enc_runs hf hmode] at he
    exact ⟨b, hd, hmode, (encodeByte_fault_eq_noSymbol_iff hf he).1 ht⟩
  · rintro ⟨b, hd, hmode, hb, hc⟩
    rw [issue_of_decode_instr hd, exec_enc_runs hf hmode] at h
    exact (encodeByte_fault_eq_noSymbol_iff hf h).2 ⟨hb, hc⟩

/-- Settles O21: of all bodies only DEC's raises MALFORMED, at the three tests before its walk. -/
theorem malformedHasThreeCauses : Obligations.MalformedHasThreeCauses := by
  intro w s t hf h
  constructor
  · intro ht
    obtain ⟨i, hd, he, ha, hm⟩ := issue_fault_of_body hf h (by simp [ht]) (by simp [ht])
    obtain ⟨c, rfl⟩ := eq_dec_of_malformed_mem (ht ▸ hm)
    have hmode : s.mode = .dec := beq_iff_eq.1 ha
    rw [exec_dec_runs hf hmode] at he
    exact ⟨c, hd, hmode, ((decodeChar_fault_eq_malformed_iff hf he).1 ht).imp_left (charBit_eq_none c).1⟩
  · rintro ⟨c, hd, hmode, hbad⟩
    rw [issue_of_decode_instr hd, exec_dec_runs hf hmode] at h
    exact (decodeChar_fault_eq_malformed_iff hf h).2 (hbad.imp_left (charBit_eq_none c).2)

/-- Settles O22: a word that is no command is rejected, and a command is refused by the admission table alone. -/
theorem illegalCmdHasTwoCauses : Obligations.IllegalCmdHasTwoCauses := by
  intro w s t hf h
  obtain ⟨y, hd, rfl⟩ | ⟨i, hd, he⟩ := issue_next h
  · rw [rejectWord_not_faulted hf]
    exact iff_of_true rfl (.inl ⟨y, hd⟩)
  · rw [exec_fault_eq_illegalCmd_iff hf he]
    simp [hd]

end Sys2Proof.Machine
end

section
/-! SUPPORT. What a command does to the counts, the tree, the code table and PHASE (20_memory.md R66). -/

namespace Sys2Proof.Machine

variable {i : Instr} {s t : State}

/-- `t` has the PHASE, counts, tree and code table of `s`; only the registers of a session, of a fault and of the host
may differ. -/
def State.SameBuild (s t : State) : Prop :=
  t = { s with mode := t.mode, cur := t.cur, out := t.out, fault := t.fault, faultCmd := t.faultCmd,
               trunc := t.trunc, outCap := t.outCap, host := t.host, stamp := t.stamp }

theorem State.SameBuild.rejected (s : State) (w : Word) : s.SameBuild (rejectWord w s) := by
  unfold rejectWord
  split <;> rfl

/-- Only CLR, CNT, BLD and GEN change the counts, the tree, the code table or PHASE, each in the phase that admits it
(R101). -/
theorem exec_build (h : exec i s = .next t) :
    (i = .clr ∧ t = s.cleared) ∨
    (∃ b, i = .cnt b ∧ s.phase = .idle ∧ t = { s with freq := t.freq }) ∨
    (i = .bld ∧ s.phase = .idle ∧ totalCount s.freq ≤ Config.wmax ∧
      t = s.withTree (presentBytes s.freq).length (buildTree s.freq)) ∨
    (i = .gen ∧ s.phase = .built ∧ ∃ c, generate s = some c ∧ t = { s with code := c, phase := .ready }) ∨
    s.SameBuild t := by
  obtain hclr | ⟨-, -, rfl⟩ | ⟨-, -, f, -, rfl⟩ | ⟨-, -, he⟩ := exec_next h
  · exact .inl hclr
  · exact .inr (.inr (.inr (.inr rfl)))
  · exact .inr (.inr (.inr (.inr rfl)))
  · cases he with
    | cnt hp => exact .inr (.inl ⟨_, rfl, hp, rfl⟩)
    | bld hp ht => exact .inr (.inr (.inl ⟨rfl, hp, ht, rfl⟩))
    | gen hp hg => exact .inr (.inr (.inr (.inl ⟨rfl, hp, _, hg, rfl⟩)))
    | _ => exact .inr (.inr (.inr (.inr rfl)))

end Sys2Proof.Machine
end

section
/-! SUPPORT. The tree invariants under each thing a step can do (10_state.md R38). -/

namespace Sys2Proof.Machine

variable {i : Instr} {s t : State}

/-- In IDLE there is no node (R27, R42). -/
theorem Bookkeeping.node_eq_nil (h : Bookkeeping s) (hp : s.phase = .idle) : s.node = [] := by
  have hcount := h.node_count
  rw [h.idle_no_leaf hp] at hcount
  exact List.length_eq_zero_iff.1 hcount

/-- In IDLE there is no root (R29). -/
theorem Bookkeeping.no_root (h : Bookkeeping s) (hp : s.phase = .idle) : s.rootValid = false :=
  eq_false_of_ne_true fun hv => (h.root_valid.1 hv).1 hp

/-- In IDLE the arena is a tree of any counts, since it holds no node. -/
theorem treeShape_of_no_node (hp : s.phase = .idle) (hnode : s.node = []) (hv : s.rootValid = false) :
    TreeShape s := by
  have hnone {k : Nat} {x : Node} : s.node[k]? ≠ some x := by simp [hnode]
  exact {
    leaf := fun _ _ hx => absurd hx hnone
    leaf_order := fun _ _ _ _ hx => absurd hx hnone
    leaf_all := fun hn => absurd hp hn
    internal := fun _ _ hx => absurd hx hnone
    has_parent := fun c hc => by simp [State.nnode, hnode] at hc
    one_parent := fun _ _ _ _ _ hx => absurd hx hnone
    merge_order := fun _ _ hx => absurd hx hnone
    root_weight := fun hr => by simp [hv] at hr }

theorem treeShape_cleared (s : State) : TreeShape s.cleared := treeShape_of_no_node rfl rfl rfl

theorem TreeShape.sameBuild (h : TreeShape s) (hst : s.SameBuild t) : TreeShape t := by
  rw [hst]
  exact { h with }

theorem TreeShape.after_exec (h : TreeShape s) (hb : Bookkeeping s) (he : exec i s = .next t) : TreeShape t := by
  obtain ⟨-, rfl⟩ | ⟨b, -, hp, ht⟩ | ⟨-, -, htotal, rfl⟩ | ⟨-, hp, c, -, rfl⟩ | hst := exec_build he
  · exact treeShape_cleared s
  · rw [ht]
    exact treeShape_of_no_node hp (hb.node_eq_nil hp) (hb.no_root hp)
  · exact treeShape_withTree htotal
  · exact { h with leaf_all := fun _ => h.leaf_all (by simp [hp]) }
  · exact h.sameBuild hst

end Sys2Proof.Machine
end

section
/-! SUPPORT. No two paths from a node lead to the same byte (10_state.md R38), so the codes that GEN stores are exactly
the root-to-leaf paths (42_code_table.md R141). -/

namespace Sys2Proof.Machine

variable {node : List Node} {s t : State} {i : Idx} {a b : Byte} {p q r r' : Code}

/-- The node at the end of a path from node `i`, one edge a bit. -/
def endOf (node : List Node) (i : Idx) (p : Code) : Idx := p.foldl (fun j d => (nodeRead node j).child d) i

theorem endOf_concat (d : Bool) : endOf node i (p ++ [d]) = (nodeRead node (endOf node i p)).child d :=
  List.foldl_concat ..

/-- The rest of a path leads on from the end of its first part. -/
theorem leafAt_endOf (h : leafAt node i (p ++ r) = some b) : leafAt node (endOf node i p) r = some b := by
  induction p generalizing i with
  | nil => exact h
  | cons d p ih => exact ih (leafAt_cons_eq_some.1 h).2

/-- Each edge of a path leads to a smaller index (R38). -/
theorem TreeShape.endOf_add_length_le (h : TreeShape s) (hi : i.toNat < s.nnode)
    (hp : leafAt s.node i (p ++ r) = some b) : (endOf s.node i p).toNat + p.length ≤ i.toNat := by
  induction p generalizing i with
  | nil => exact le_rfl
  | cons d p ih =>
    obtain ⟨hl, hp⟩ := leafAt_cons_eq_some.1 hp
    have hlt := h.child_lt (getElem?_of_lt hi) hl d
    have hrest : (endOf s.node i (d :: p)).toNat + p.length ≤ ((nodeRead s.node i).child d).toNat :=
      ih (hlt.trans hi) hp
    rw [List.length_cons]
    omega

/-- The node before an edge of a path is an internal node of the tree. -/
theorem TreeShape.endOf_internal (h : TreeShape s) (hi : i.toNat < s.nnode) {d : Bool}
    (hp : leafAt s.node i (p ++ [d] ++ r) = some b) :
    (endOf s.node i p).toNat < s.nnode ∧ (nodeRead s.node (endOf s.node i p)).isLeaf = false := by
  rw [List.append_assoc] at hp
  have hle := h.endOf_add_length_le hi hp
  exact ⟨by omega, (leafAt_cons_eq_some.1 (leafAt_endOf hp)).1⟩

/-- The two children of an internal node differ (R38). -/
theorem TreeShape.child_inj (h : TreeShape s) {k : Nat} {x : Node} (hx : s.node[k]? = some x) (hl : x.isLeaf = false)
    {d e : Bool} (hde : x.child d = x.child e) : d = e := by
  have hk : s.nleaf.toNat ≤ k := Nat.le_of_not_lt fun hk => by simp [(h.isLeaf_iff hx).2 hk] at hl
  obtain ⟨-, -, -, -, hne, -⟩ := h.internal k x hx hk
  cases d <;> cases e
  · rfl
  · exact absurd hde hne
  · exact absurd hde.symm hne
  · rfl

/-- A node has one parent (R38). -/
theorem TreeShape.parent_unique (h : TreeShape s) {m n : Idx} (hm : m.toNat < s.nnode) (hn : n.toNat < s.nnode)
    (hml : (nodeRead s.node m).isLeaf = false) (hnl : (nodeRead s.node n).isLeaf = false) {d e : Bool}
    (hde : (nodeRead s.node m).child d = (nodeRead s.node n).child e) : m = n := by
  have isChild (x : Node) (d : Bool) : x.left = x.child d ∨ x.right = x.child d := by cases d <;> simp
  exact BitVec.eq_of_toNat_eq (h.one_parent _ _ _ _ _ (getElem?_of_lt hm) (getElem?_of_lt hn) hml hnl
    (isChild _ d) (hde ▸ isChild _ e))

/-- Two paths from a node that end on the same node are one: climb both from that node. -/
theorem TreeShape.endOf_inj (h : TreeShape s) (hi : i.toNat < s.nnode) (hp : leafAt s.node i (p ++ r) = some a)
    (hq : leafAt s.node i (q ++ r') = some b) (hend : endOf s.node i p = endOf s.node i q) : p = q := by
  induction p using List.reverseRecOn generalizing q r r' with
  | nil =>
    have hle := h.endOf_add_length_le hi hq
    rw [← hend] at hle
    exact (List.length_eq_zero_iff.1 (Nat.add_eq_left.1 (le_antisymm hle (Nat.le_add_right _ _)))).symm
  | append_singleton p d ih =>
    induction q using List.reverseRecOn with
    | nil =>
      have hle := h.endOf_add_length_le hi hp
      rw [hend, List.length_append] at hle
      exact absurd hle (by simp [endOf])
    | append_singleton q e =>
      obtain ⟨hm, hml⟩ := h.endOf_internal hi hp
      obtain ⟨hn, hnl⟩ := h.endOf_internal hi hq
      rw [endOf_concat, endOf_concat] at hend
      have hparent := h.parent_unique hm hn hml hnl hend
      rw [← hparent] at hend
      rw [List.append_assoc] at hp hq
      rw [ih hp hq hparent, h.child_inj (getElem?_of_lt hm) hml hend]

/-- No byte is on two leaves (R27). -/
theorem TreeShape.leaf_unique (h : TreeShape s) {k l : Nat} {x y : Node} (hx : s.node[k]? = some x)
    (hy : s.node[l]? = some y) (hxl : x.isLeaf = true) (hyl : y.isLeaf = true) (hsym : x.sym = y.sym) : k = l := by
  obtain hlt | heq | hlt := lt_trichotomy k l
  · exact absurd hsym (BitVec.ne_of_lt (h.leaf_order k l x y hx hy hlt ((h.isLeaf_iff hy).1 hyl)))
  · exact heq
  · exact absurd hsym.symm (BitVec.ne_of_lt (h.leaf_order l k y x hy hx hlt ((h.isLeaf_iff hx).1 hxl)))

/-- A path that starts in the tree ends in it, on the leaf of its byte. -/
theorem TreeShape.leaf_endOf (h : TreeShape s) (hi : i.toNat < s.nnode) (hp : leafAt s.node i p = some b) :
    s.node[(endOf s.node i p).toNat]? = some (nodeRead s.node (endOf s.node i p)) ∧
      (nodeRead s.node (endOf s.node i p)).isLeaf = true ∧ (nodeRead s.node (endOf s.node i p)).sym = b := by
  rw [← List.append_nil p] at hp
  have hle := h.endOf_add_length_le hi hp
  exact ⟨getElem?_of_lt (show _ < s.nnode by omega), leafAt_nil_eq_some.1 (leafAt_endOf hp)⟩

/-- Two paths from a node to the same byte are one. -/
theorem TreeShape.leafAt_inj (h : TreeShape s) (hi : i.toNat < s.nnode) (hp : leafAt s.node i p = some b)
    (hq : leafAt s.node i q = some b) : p = q := by
  obtain ⟨hx, hxl, hxb⟩ := h.leaf_endOf hi hp
  obtain ⟨hy, hyl, hyb⟩ := h.leaf_endOf hi hq
  have hend := BitVec.eq_of_toNat_eq (h.leaf_unique hx hy hxl hyl (hxb.trans hyb.symm))
  rw [← List.append_nil p] at hp
  rw [← List.append_nil q] at hq
  exact h.endOf_inj hi hp hq hend

/-! The table GEN stores -/

/-- Every byte on a leaf is counted, so it has a code, which is the one path to it. -/
theorem State.CodedBy.get_eq_some_iff {c : Table (Option Code)} (hc : s.CodedBy c) (h : TreeShape s)
    (hb : Bookkeeping s) (hp : s.phase ≠ .idle) :
    Table.get c b = some p ↔ s.rootValid = true ∧ leafAt s.node s.root p = some b := by
  refine ⟨hc.path b p, fun ⟨hv, hpath⟩ => ?_⟩
  have hroot := Nat.lt_of_succ_le (hb.root_last hv).le
  have hcount := (h.hasLeaf_iff_counted hp).1 (h.hasLeaf_of_leafAt hroot hpath)
  have hcounted : Table.get s.freq b ≠ 0#32 := fun h0 => by simp [h0] at hcount
  obtain ⟨q, hq, -, hqpath⟩ := hc.exists_path hcounted
  rw [hq, h.leafAt_inj hroot hqpath hpath]

/-- What GEN stores (R140, R141). -/
theorem TreeShape.get_generate_eq_some_iff {c : Table (Option Code)} (h : TreeShape s) (hb : Bookkeeping s)
    (hp : s.phase ≠ .idle) (hg : generate s = some c) :
    Table.get c b = some p ↔ s.rootValid = true ∧ leafAt s.node s.root p = some b := by
  obtain ⟨c', hg', hcodes⟩ := h.exists_generate hb hp
  cases hg.symm.trans hg'
  exact hcodes.get_eq_some_iff h hb hp

/-! The code table under each thing a step can do -/

/-- Before GEN has run the table is empty (R30). -/
theorem codesOfTree_of_empty (hp : s.phase ≠ .ready) (h : ∀ b, Table.get s.code b = none) : CodesOfTree s :=
  ⟨fun _ => h, fun hr => absurd hr hp⟩

theorem codesOfTree_cleared (s : State) : CodesOfTree s.cleared :=
  codesOfTree_of_empty nofun (Table.get_replicate none)

theorem CodesOfTree.sameBuild (h : CodesOfTree s) (hst : s.SameBuild t) : CodesOfTree t := by
  rw [hst]
  exact { h with }

theorem CodesOfTree.after_exec {j : Instr} (h : CodesOfTree s) (hb : Bookkeeping s) (htree : TreeShape s)
    (he : exec j s = .next t) : CodesOfTree t := by
  obtain ⟨-, rfl⟩ | ⟨b, -, hp, ht⟩ | ⟨-, hp, -, rfl⟩ | ⟨-, hp, c, hg, rfl⟩ | hst := exec_build he
  · exact codesOfTree_cleared s
  · rw [ht]
    exact { h with }
  · have hempty := h.before (by simp [hp])
    rw [withTree_buildTree]
    exact codesOfTree_of_empty nofun hempty
  · exact ⟨absurd rfl, fun _ _ _ => htree.get_generate_eq_some_iff hb (by simp [hp]) hg⟩
  · exact h.sameBuild hst

end Sys2Proof.Machine
end

section
/-! SUPPORT. The decoder's position under each thing a step can do (10_state.md R31; 44_decoder.md R169). -/

namespace Sys2Proof.Machine

variable {i : Instr} {s t : State}

/-- Outside a decode session CUR only has to name a node, or none (R31). -/
theorem decoderPosition_of_not_dec (hr : s.cur = Config.nil ∨ s.cur.toNat < s.nnode) (hm : s.mode ≠ .dec) :
    DecoderPosition s :=
  ⟨hr, fun h => absurd h hm, fun h => absurd h hm, fun h => absurd h hm⟩

theorem decoderPosition_cleared (s : State) : DecoderPosition s.cleared :=
  decoderPosition_of_not_dec (.inl rfl) nofun

theorem DecoderPosition.taken (h : DecoderPosition s) (rest : List HostInput) : DecoderPosition (s.taken rest) :=
  { h with }

/-- Fault entry closes the session and leaves CUR (R191). -/
theorem DecoderPosition.raise (h : DecoderPosition s) (f : FaultCode) (w : Word) : DecoderPosition (s.raise f w) :=
  decoderPosition_of_not_dec h.in_range nofun

theorem DecoderPosition.rejected (h : DecoderPosition s) (w : Word) : DecoderPosition (rejectWord w s) := by
  unfold rejectWord
  split
  · exact h
  · exact h.raise _ w

/-- A session that stands at the root, with nothing emitted where the root is a leaf (R165, R169). -/
theorem decoderPosition_at_root (hb : Bookkeeping s) (hcur : s.cur = s.root) (hout : singleLeaf s = true → s.out = []) :
    DecoderPosition s := by
  have hin (hv : s.rootValid = true) : s.cur.toNat < s.nnode := hcur ▸ Nat.lt_of_succ_le (hb.root_last hv).le
  refine ⟨?_, fun _ => hin, fun _ _ hl => hcur ▸ hl, fun _ hl => ⟨hcur, hout hl⟩⟩
  cases hv : s.rootValid with
  | true => exact .inr (hin hv)
  | false => exact .inl (by rw [hcur, hb.root_index, hv]; rfl)

/-- In the single-leaf tree the decoder is on a leaf. -/
theorem DecoderPosition.singleLeaf_eq_false (h : DecoderPosition s) (hm : s.mode = .dec)
    (hi : (s.nodeAt s.cur).isLeaf = false) : singleLeaf s = false := by
  refine eq_false_of_ne_true fun hl => ?_
  rw [(h.lone_at_root hm hl).1, (Bool.and_eq_true_iff.1 hl).2] at hi
  cases hi

/-- DEC to an internal node stays in the tree, which holds the children of its internal nodes (R166). -/
theorem DecoderPosition.move (h : DecoderPosition s) (htree : TreeShape s) (hm : s.mode = .dec)
    (hv : s.rootValid = true) (hi : (s.nodeAt s.cur).isLeaf = false) {d : Bool}
    (hl : (s.nodeAt ((s.nodeAt s.cur).child d)).isLeaf = false) :
    DecoderPosition { s with cur := (s.nodeAt s.cur).child d } := by
  have hcur := h.in_session hm hv
  have hchild := (htree.child_lt (getElem?_of_lt hcur) hi d).trans hcur
  refine ⟨.inr hchild, fun _ _ => hchild, fun _ _ _ => hl, fun _ hlone => ?_⟩
  exact absurd ((h.singleLeaf_eq_false hm hi).symm.trans hlone) nofun

theorem DecoderPosition.after_effect (h : DecoderPosition s) (hb : Bookkeeping s) (htree : TreeShape s)
    (hbt : Bookkeeping t) (he : Effect i s t) : DecoderPosition t := by
  have hr := h.in_range
  cases he with
  | nop => exact h
  | cntFiltered => exact h
  | cnt => exact { h with }
  | bld hp =>
    have hm : s.mode = .none := hb.mode_of_not_ready (by simp [hp])
    rw [State.nnode, hb.node_eq_nil hp] at hr
    rw [withTree_buildTree]
    exact decoderPosition_of_not_dec (.inl (hr.resolve_right (Nat.not_lt_zero _))) (by simp [hm])
  | gen => exact { h with }
  | ebeg => exact decoderPosition_of_not_dec hr nofun
  | encFiltered => exact h
  | enc hm => exact decoderPosition_of_not_dec hr (by simp [hm])
  | eend => exact decoderPosition_of_not_dec hr nofun
  | dbeg => exact decoderPosition_at_root hbt rfl fun _ => rfl
  | decEmit hm _ hi =>
    have hlone := h.singleLeaf_eq_false hm hi
    exact decoderPosition_at_root hbt rfl fun hl => absurd (hlone.symm.trans hl) nofun
  | decMove hm hv hi hl => exact h.move htree hm hv hi hl
  | dend => exact decoderPosition_of_not_dec hr nofun

theorem DecoderPosition.after_exec (h : DecoderPosition s) (hb : Bookkeeping s) (htree : TreeShape s)
    (he : exec i s = .next t) : DecoderPosition t := by
  have hbt := hb.after_exec he
  obtain ⟨-, rfl⟩ | ⟨-, -, rfl⟩ | ⟨-, -, f, -, rfl⟩ | ⟨-, -, he⟩ := exec_next he
  · exact decoderPosition_cleared s
  · exact h
  · exact h.raise f _
  · exact h.after_effect hb htree hbt he

end Sys2Proof.Machine
end

section
/-! CLAIMS. The invariants hold after reset and every step keeps them (10_state.md R38 to R42). -/

namespace Sys2Proof.Machine

/-- Settles O54: only BLD makes a tree, from the counts, and in IDLE, where counts change, there is none. -/
theorem stepKeepsTheTreeShape : Obligations.StepKeepsTheTreeShape := by
  intro s t hb h hs
  have htaken (rest : List HostInput) : TreeShape (s.taken rest) := h.sameBuild rfl
  obtain ⟨-, rfl⟩ | ⟨rest, -, rfl⟩ | ⟨w, rest, -, -, -, rfl⟩ | ⟨w, rest, i, -, -, he⟩ := step_next hs
  · exact h
  · exact treeShape_cleared _
  · exact (htaken rest).sameBuild (.rejected _ w)
  · exact (htaken rest).after_exec (hb.taken rest) he

/-- Settles O55: GEN stores one path for each byte on a leaf, and in a tree there is no other path to it. -/
theorem stepKeepsTheCodesOfTheTree : Obligations.StepKeepsTheCodesOfTheTree := by
  intro s t h hs
  have htaken (rest : List HostInput) : CodesOfTree (s.taken rest) := h.codes.sameBuild rfl
  obtain ⟨-, rfl⟩ | ⟨rest, -, rfl⟩ | ⟨w, rest, -, -, -, rfl⟩ | ⟨w, rest, i, -, -, he⟩ := step_next hs
  · exact h.codes
  · exact codesOfTree_cleared _
  · exact (htaken rest).sameBuild (.rejected _ w)
  · exact (htaken rest).after_exec (h.bookkeeping.taken rest) (h.tree.sameBuild rfl) he

/-- Settles O56: DBEG and a byte emitted put the decoder at the root, and an edge that ends on no leaf leads to an
internal node. -/
theorem stepKeepsTheDecoderPosition : Obligations.StepKeepsTheDecoderPosition := by
  intro s t h hs
  have htaken (rest : List HostInput) := h.position.taken rest
  obtain ⟨-, rfl⟩ | ⟨rest, -, rfl⟩ | ⟨w, rest, -, -, -, rfl⟩ | ⟨w, rest, i, -, -, he⟩ := step_next hs
  · exact h.position
  · exact decoderPosition_cleared _
  · exact (htaken rest).rejected w
  · exact (htaken rest).after_exec (h.bookkeeping.taken rest) (h.tree.sameBuild rfl) he

/-- Settles O52: the reset state is a cleared state, which meets each of the four. -/
theorem resetMeetsTheInvariants : Obligations.ResetMeetsTheInvariants where
  bookkeeping := .of_cleared State.reset
  tree := treeShape_cleared State.reset
  codes := codesOfTree_cleared State.reset
  position := decoderPosition_cleared State.reset

end Sys2Proof.Machine
end

section
/-! SUPPORT. Which words are illegal (30_encoding.md R84). -/

namespace Sys2Proof

variable {w : Word} {op : BitVec 4}

/-- The opcodes of format Z (R83). -/
def formatZOpcodes : List (BitVec 4) := [0x0#4, 0x1#4, 0x3#4, 0x4#4, 0x5#4, 0x7#4, 0x8#4, 0xA#4]

theorem formatB_eq_none_iff {opd : Byte} : formatB op opd = none ↔ op ∉ [0x2#4, 0x6#4, 0x9#4] := by
  unfold formatB
  split_ifs <;> simp [*]

theorem formatZ_eq_none_iff : formatZ op = none ↔ op ∉ formatZOpcodes := by
  unfold formatZ formatZOpcodes
  split_ifs <;> simp [*]

/-- The opcodes of format B are below 0xB and none of format Z. -/
theorem not_formatZ_of_formatB : op ∈ [0x2#4, 0x6#4, 0x9#4] → ¬ op > 0xA#4 ∧ op ∉ formatZOpcodes := by
  revert op
  decide

/-- An opcode of neither format is reserved. -/
theorem reserved_iff_not_formatZ : op ∉ [0x2#4, 0x6#4, 0x9#4] → (op > 0xA#4 ↔ op ∉ formatZOpcodes) := by
  revert op
  decide

/-- The words that are no command, by the three clauses of R84. -/
theorem decode_illegal_iff :
    (∃ y, decode w = .illegal y) ↔
      opField w > 0xA#4 ∨ rsvField w ≠ 0#4 ∨ (opField w ∈ formatZOpcodes ∧ opdField w ≠ 0#8) := by
  unfold decode
  split
  · next hrsv => simp [hrsv]
  · next hrsv =>
    split
    · next i hi =>
      have hB := not_imp_comm.1 (formatB_eq_none_iff (op := opField w) (opd := opdField w)).2 (by simp [hi])
      obtain ⟨hle, hZ⟩ := not_formatZ_of_formatB hB
      simp [hle, hrsv, hZ]
    · next hi =>
      have hreserved := reserved_iff_not_formatZ (formatB_eq_none_iff.1 hi)
      split
      · next hz => simp [hreserved.2 (formatZ_eq_none_iff.1 hz)]
      · next i hz =>
        have hZ : opField w ∈ formatZOpcodes := not_imp_comm.1 formatZ_eq_none_iff.2 (by simp [hz])
        have hle := mt hreserved.1 (not_not.2 hZ)
        split <;> simp_all

end Sys2Proof
end

section
/-! CLAIMS. The decoder and the encoder (30_encoding.md R84, R87). -/

namespace Sys2Proof.Machine

/-- Settles O1: each word is evaluated. -/
theorem decodeReadsTheSpecWords : Obligations.DecodeReadsTheSpecWords := by
  unfold Obligations.DecodeReadsTheSpecWords
  decide

/-- Settles O2: the decoder reads back the opcode and the operand that the encoder wrote. -/
theorem decodeOfEncodeIsTheCommand : Obligations.DecodeOfEncodeIsTheCommand := fun i _ => decode_encode i

/-- Settles O3: a legal word is the encoding of its fields. -/
theorem encodeOfDecodeIsTheWord : Obligations.EncodeOfDecodeIsTheWord := fun _ _ => encode_of_decode_eq_instr

/-- Settles O5: the decoder's tests are the clauses of R84, and the block rejects what they catch. -/
theorem illegalWordsAreRejected : Obligations.IllegalWordsAreRejected := by
  refine fun w => ⟨decode_illegal_iff, fun y s hd => ?_⟩
  have hissue : issue w s = .next (rejectWord w s) := by rw [issue, hd]
  exact ⟨fun hf => hissue.trans (congrArg _ (rejectWord_not_faulted hf)),
    fun hf => hissue.trans (congrArg _ (rejectWord_faulted hf))⟩

end Sys2Proof.Machine
end

section
/-! SUPPORT. Which commands always answer a next state (70_reset_and_hazards.md R213). -/

namespace Sys2Proof.Machine

variable {i : Instr} {s : State}

/-- The dispatch answers a next state where the body of an admitted command does. -/
theorem dispatch_answers {body : State → Result} (h : admitted i s = true → ∃ t, body s = .next t) :
    ∃ t, dispatch i body s = .next t := by
  unfold dispatch
  split
  · exact ⟨s, rfl⟩
  · split
    · next ha => exact h ha
    · exact ⟨_, rfl⟩

theorem countByte_answers (b : Byte) (s : State) : ∃ t, countByte b s = .next t := by
  unfold countByte
  split_ifs <;> exact ⟨_, rfl⟩

theorem buildBody_answers (s : State) : ∃ t, buildBody s = .next t := by
  unfold buildBody
  split <;> exact ⟨_, rfl⟩

theorem encodeByte_answers (b : Byte) (s : State) : ∃ t, encodeByte b s = .next t := by
  unfold encodeByte
  split
  · exact ⟨_, rfl⟩
  · split
    · exact ⟨_, rfl⟩
    · split <;> exact ⟨_, rfl⟩

theorem walkEdge_answers (w : Word) (d : Bool) (s : State) : ∃ t, walkEdge w d s = .next t := by
  unfold walkEdge
  dsimp only
  split_ifs <;> exact ⟨_, rfl⟩

theorem decodeChar_answers (c : Byte) (s : State) : ∃ t, decodeChar c s = .next t := by
  unfold decodeChar
  split
  · exact ⟨_, rfl⟩
  · split_ifs
    · exact ⟨_, rfl⟩
    · exact ⟨_, rfl⟩
    · exact walkEdge_answers _ _ s

theorem endDecode_answers (s : State) : ∃ t, endDecode s = .next t := by
  unfold endDecode
  split <;> exact ⟨_, rfl⟩

/-- A command answers a next state, GEN where its walk completes (R143). -/
theorem exec_answers (hgen : i = .gen → s.phase = .built → ∃ c, generate s = some c) : ∃ t, exec i s = .next t := by
  cases i with
  | nop => exact dispatch_answers fun _ => ⟨_, rfl⟩
  | clr => exact ⟨_, rfl⟩
  | cnt b => exact dispatch_answers fun _ => countByte_answers b s
  | bld => exact dispatch_answers fun _ => buildBody_answers s
  | gen =>
    refine dispatch_answers fun ha => ?_
    obtain ⟨c, hc⟩ := hgen rfl (beq_iff_eq.1 ha)
    exact ⟨_, by rw [generateBody, hc]⟩
  | ebeg =>
    rw [exec_ebeg]
    exact dispatch_answers fun _ => ⟨_, rfl⟩
  | enc b => exact dispatch_answers fun _ => encodeByte_answers b s
  | eend =>
    rw [exec_eend]
    exact dispatch_answers fun _ => ⟨_, rfl⟩
  | dbeg =>
    rw [exec_dbeg]
    exact dispatch_answers fun _ => ⟨_, rfl⟩
  | dec c => exact dispatch_answers fun _ => decodeChar_answers c s
  | dend => exact dispatch_answers fun _ => endDecode_answers s

/-- One word is answered where every command is. -/
theorem issue_answers {w : Word} (h : ∀ i, ∃ t, exec i s = .next t) : ∃ t, issue w s = .next t := by
  unfold issue
  split
  · next i _ => exact h i
  · exact ⟨_, rfl⟩

end Sys2Proof.Machine
end

section
/-! CLAIMS. The step: what it runs, what a reset does, and that it goes on (60_exceptions.md R200;
70_reset_and_hazards.md R210, R213). -/

namespace Sys2Proof.Machine

/-- Settles O6: the equations of the step, and a placed word decodes to its command. -/
theorem stepRunsTheDecodedCommand : Obligations.StepRunsTheDecodedCommand := by
  have hcmd {s : State} {w rest} (hh : s.host = .cmd w :: rest) : step s = issue w (s.taken rest) := by
    rw [step, takeInput, hh]
  intro s
  refine ⟨fun w rest i hh hd => ?_, fun w rest y hh hd => ?_, fun i => ?_, fun hh => ?_⟩
  · rw [hcmd hh, issue_of_decode_instr hd]
    rfl
  · rw [hcmd hh, issue, hd]
    rfl
  · have hw : BitVec.ofNat 16 ((encode i).toNat % 2 ^ 16) = encode i := by
      rw [Nat.mod_eq_of_lt (encode i).isLt, BitVec.ofNat_toNat, BitVec.setWidth_eq]
    rw [hcmd (State.withFetchWord_host s 16 _), hw, issue_of_decode_instr (decode_encode i)]
    rfl
  · rw [step, takeInput, hh]

/-- Settles O8: a reset request and CLR both leave the cleared state. -/
theorem resetRequestResetsTheBlock : Obligations.ResetRequestResetsTheBlock := by
  refine ⟨rfl, fun s rest hh => ?_, fun s => ⟨_, exec_clr s, rfl, rfl, rfl⟩⟩
  refine ⟨(s.taken rest).cleared, ?_, (s.taken rest).cleared_atReset, rfl, rfl, rfl, rfl, rfl, exec_clr _⟩
  rw [step, takeInput, hh]

/-- Settles O9: the capacity is one more than a 31-bit number. -/
theorem outputCapacityIsInRange : Obligations.OutputCapacityIsInRange :=
  ⟨Nat.succ_pos _, Config.outCapLessOne.isLt⟩

/-- Settles O10: only GEN could stop, and on a tree of the counts its walk completes. -/
theorem invariantStatesGoOn : Obligations.InvariantStatesGoOn := by
  intro s h
  unfold State.goesOn step takeInput
  split
  · exact ⟨_, rfl⟩
  · exact ⟨_, rfl⟩
  · next w rest _ =>
    refine issue_answers fun i => exec_answers fun _ hp => ?_
    have htree : TreeShape (s.taken rest) := h.tree.sameBuild rfl
    obtain ⟨c, hc, -⟩ := htree.exists_generate (h.bookkeeping.taken rest) (by rw [hp]; nofun)
    exact ⟨c, hc⟩

end Sys2Proof.Machine
end

section
/-! SUPPORT. A byte that is never counted (40_control_and_frequency.md R106): the counts of filtered bytes, and at most
255 leaves. -/

namespace Sys2Proof.Machine

variable {s : State}

/-- The filter takes NEWLINE out and no other byte (R106). -/
theorem count_filterBytes (bs : List Byte) (b : Byte) :
    (filterBytes bs).count b = if b = Config.newline then 0 else bs.count b := by
  split
  · next hb => exact List.count_eq_zero.2 fun hm => by simpa [isFiltered, hb] using (List.mem_filter.1 hm).2
  · next hb => exact List.count_filter (by simp [isFiltered, hb])

/-- NEWLINE is on no leaf, since a leaf weighs its count, which is at least 1 (R38). -/
theorem TreeShape.newline_notMem_leafSyms (h : TreeShape s) (hb : Bookkeeping s) : Config.newline ∉ s.leafSyms := by
  intro hm
  obtain ⟨k, x, hx, hl, hsym⟩ := h.mem_leafSyms.1 hm
  obtain ⟨-, -, -, hweight, hpos⟩ := h.leaf k x hx ((h.isLeaf_iff hx).1 hl)
  rw [hweight, hsym, hb.newline_uncounted] at hpos
  cases hpos

/-- The leaves are of distinct bytes other than NEWLINE (R143). -/
theorem TreeShape.nleaf_le (h : TreeShape s) (hb : Bookkeeping s) : s.nleaf.toNat ≤ 255 := by
  have hnodup := List.nodup_cons.2 ⟨h.newline_notMem_leafSyms hb, h.leafSyms_nodup⟩
  have hle := (List.subperm_of_subset hnodup fun b _ => mem_allBytes b).length_le
  rw [List.length_cons, hb.leafSyms_length] at hle
  exact Nat.le_of_succ_le_succ (hle.trans (by simp [allBytes, Config.nsym]))

end Sys2Proof.Machine
end

section
/-! CLAIMS. The counts, the queue, the tree and the code table (40_control_and_frequency.md R105; 41_tree_builder.md
R120, R129, R133; 42_code_table.md R141 to R146). -/

namespace Sys2Proof.Machine

/-- Settles O14: each CNT adds one to the count of its byte, by induction on the bytes. -/
theorem countingAddsOccurrences : Obligations.CountingAddsOccurrences := by
  intro s bs hf hp hroom
  have hfit : CountsFit s.freq bs := by
    intro c
    rw [count_filterBytes]
    split
    · exact Nat.le_pred_of_lt (Table.get s.freq c).isLt
    · next hc => exact hroom c hc
  refine ⟨_, execAll_countSession hf hp hfit, rfl, fun b hb => ?_, BitVec.eq_of_toNat_eq ?_⟩
  · exact (hfit.toNat_get_foldl b).trans (by rw [count_filterBytes, if_neg (show b ≠ Config.newline from hb)])
  · exact (hfit.toNat_get_foldl Config.newline).trans (by rw [count_filterBytes, if_pos rfl]; rfl)

/-- Settles O24: a new node goes behind those that are not heavier and before those that are. -/
theorem insertKeepsTheQueueOrdered : Obligations.InsertKeepsTheQueueOrdered := fun wt n q hq =>
  ⟨pqInsert_pairwise (fun _ _ => le_trans) (fun _ _ => BitVec.not_lt.1) (fun _ _ => Nat.le_of_lt) hq,
    pqInsert_perm wt n q⟩

/-- Settles O27: the total is tested before the first write. -/
theorem bldOverflowBuildsNothing : Obligations.BldOverflowBuildsNothing := fun s hf hp ht =>
  (exec_bld s).trans ((dispatch_admitted (i := .bld) hf (beq_iff_eq.2 hp)).trans (if_pos ht))

/-- Settles O31: BLD alone writes the tree, and BLD runs in IDLE. -/
theorem treeIsFrozen : Obligations.TreeIsFrozen := by
  intro i s t hp hi h
  obtain ⟨hclr, -⟩ | ⟨b, -, hidle, -⟩ | ⟨-, hidle, -⟩ | ⟨-, -, c, -, rfl⟩ | hst := exec_build h
  · exact absurd hclr hi
  · exact absurd hidle hp
  · exact absurd hidle hp
  · exact ⟨rfl, rfl, rfl, rfl, rfl⟩
  · rw [hst]
    exact ⟨rfl, rfl, rfl, rfl, rfl⟩

/-- Settles O32: the walk completes, and stores for each byte the one path to its leaf. -/
theorem genStoresTheRootToLeafPaths : Obligations.GenStoresTheRootToLeafPaths := by
  intro s h hf hp
  have hne : s.phase ≠ .idle := by simp [hp]
  obtain ⟨c, hc, -⟩ := h.tree.exists_generate h.bookkeeping hne
  exact ⟨_, exec_gen_generates hf hp hc, rfl, fun b p => h.tree.get_generate_eq_some_iff h.bookkeeping hne hc⟩

/-- Settles O35: a path passes internal nodes of ever smaller index, of which there are NLEAF - 1; NEWLINE is not
counted, so there are at most 255 leaves. -/
theorem codesFitThePathRegister : Obligations.CodesFitThePathRegister := by
  intro s h b p hc
  have hle := h.code_length_le hc
  have hleaves := h.tree.nleaf_le h.bookkeeping
  exact ⟨hle, by omega⟩

/-- Settles O36: GEN alone writes the code table, and GEN runs in BUILT. -/
theorem codeTableIsFrozen : Obligations.CodeTableIsFrozen := by
  intro i s t hp hi h
  obtain ⟨hclr, -⟩ | ⟨b, -, hidle, -⟩ | ⟨-, hidle, -⟩ | ⟨-, hbuilt, -⟩ | hst := exec_build h
  · exact absurd hclr hi
  · simp [hp] at hidle
  · simp [hp] at hidle
  · simp [hp] at hbuilt
  · rw [hst]

end Sys2Proof.Machine
end

section
/-! SUPPORT. A run of DEC (44_decoder.md R166, R174), and a change of FREQ and CODE, which the decoder does not see
(R175). -/

namespace Sys2Proof.Machine

variable {s t : State} {c : Byte}

/-! A run of DEC -/

/-- A decode session that has not faulted, or one that has, whose output is empty (R191). -/
def State.DecRun (s : State) : Prop := (s.fault = .none ∧ s.mode = .dec) ∨ (s.fault ≠ .none ∧ s.out = [])

/-- The effects of DEC keep the session open (R166). -/
theorem Effect.dec_mode (h : Effect (.dec c) s t) : t.mode = s.mode := by
  cases h <;> rfl

theorem exec_dec_decRun (h : s.DecRun) (c : Byte) : ∃ t, exec (.dec c) s = .next t ∧ t.DecRun := by
  obtain ⟨t, ht⟩ := exec_answers (i := .dec c) (s := s) nofun
  refine ⟨t, ht, ?_⟩
  obtain ⟨hclr, -⟩ | ⟨-, -, rfl⟩ | ⟨-, -, f, hf, rfl⟩ | ⟨-, hf, he⟩ := exec_next ht
  · cases hclr
  · exact h
  · exact .inr ⟨hf, rfl⟩
  · have hm := (h.resolve_right fun hr => hr.1 hf).2
    exact .inl ⟨he.fault_eq.trans hf, he.dec_mode.trans hm⟩

theorem execAll_decs_decRun (h : s.DecRun) (cs : List Byte) : ∃ t, execAll (cs.map .dec) s = .next t ∧ t.DecRun := by
  induction cs generalizing s with
  | nil => exact ⟨s, rfl, h⟩
  | cons c cs ih =>
    obtain ⟨m, hm, hrun⟩ := exec_dec_decRun h c
    obtain ⟨t, ht, hend⟩ := ih hrun
    exact ⟨t, (execAll_cons hm _).trans ht, hend⟩

/-- While a fault is recorded a run of DEC is ignored (R192). -/
theorem execAll_decs_faulted (hf : s.fault ≠ .none) (cs : List Byte) : execAll (cs.map .dec) s = .next s := by
  induction cs with
  | nil => rfl
  | cons c cs ih => exact (execAll_cons (exec_faulted (i := .dec c) hf nofun) _).trans ih

/-! FREQ and CODE replaced -/

/-- The same state over other counts and another code table. -/
def State.overTable (freq : Table Weight) (code : Table (Option Code)) (s : State) : State :=
  { s with freq := freq, code := code }

variable (freq : Table Weight) (code : Table (Option Code))

theorem admitted_overTable (i : Instr) (s : State) : admitted i (s.overTable freq code) = admitted i s := by
  cases i <;> rfl

theorem dispatch_overTable {i : Instr} {body : State → Result}
    (hbody : ∀ t, body s = .next t → body (s.overTable freq code) = .next (t.overTable freq code))
    (h : dispatch i body s = .next t) :
    dispatch i body (s.overTable freq code) = .next (t.overTable freq code) :=
  dispatch_commutes (State.overTable freq code) rfl (admitted_overTable freq code i s) (fun _ _ => rfl) hbody h

theorem walkEdge_overTable {w : Word} {d : Bool} (h : walkEdge w d s = .next t) :
    walkEdge w d (s.overTable freq code) = .next (t.overTable freq code) := by
  cases hl : (s.nodeAt ((s.nodeAt s.cur).child d)).isLeaf with
  | true =>
    obtain hfit | hfull := le_or_gt (s.outLen + 1) s.outCap
    · cases (walkEdge_emits rfl hl hfit).symm.trans h
      exact walkEdge_emits rfl hl hfit
    · cases (walkEdge_full rfl hl hfull).symm.trans h
      exact walkEdge_full rfl hl hfull
  | false =>
    cases (walkEdge_moves rfl hl).symm.trans h
    exact walkEdge_moves rfl hl

/-- DEC reads the tree, CUR and OUT alone. -/
theorem decodeChar_overTable (h : decodeChar c s = .next t) :
    decodeChar c (s.overTable freq code) = .next (t.overTable freq code) := by
  by_cases hbad : charBit c = none ∨ s.rootValid = false ∨ (s.nodeAt s.cur).isLeaf = true
  · cases (decodeChar_malformed hbad).symm.trans h
    exact decodeChar_malformed hbad
  · simp only [not_or, Bool.not_eq_false, Bool.not_eq_true] at hbad
    obtain ⟨hchar, hv, hi⟩ := hbad
    obtain ⟨d, hd⟩ := Option.ne_none_iff_exists'.1 hchar
    rw [decodeChar_walks hd hv hi] at h
    exact (decodeChar_walks (s := s.overTable freq code) hd hv hi).trans (walkEdge_overTable freq code h)

/-- DEND reads the tree, CUR and OUT alone. -/
theorem endDecode_overTable (h : endDecode s = .next t) :
    endDecode (s.overTable freq code) = .next (t.overTable freq code) := by
  cases hfit : endFits s with
  | true =>
    cases (if_pos hfit).symm.trans h
    exact if_pos hfit
  | false =>
    cases (if_neg (by simp [hfit])).symm.trans h
    exact if_neg (ne_true_of_eq_false hfit)

end Sys2Proof.Machine
end

section
/-! CLAIMS. The decoder over a path, over a bad character, over another table (44_decoder.md R166 to R175). -/

namespace Sys2Proof.Machine

/-- Settles O46: DEC follows the path edge by edge, by induction on it. -/
theorem decodingACodeEmitsItsByte : Obligations.DecodingACodeEmitsItsByte := by
  intro s p b hf hm hv hl hcur hfit hp
  rw [← hcur] at hl hp
  rw [execAll_decs_path hf hm hv hl hfit hp, hcur]
  rfl

/-- Settles O47: the characters before end the session with an empty output or leave it open for the bad one, and what
comes after a fault is ignored. -/
theorem badCharacterIsRejected : Obligations.BadCharacterIsRejected := by
  intro s cs ds c hf hm h0 h1
  obtain ⟨u, hu, hrun⟩ := execAll_decs_decRun (.inl ⟨hf, hm⟩) cs
  have happend : execAll ((cs ++ c :: ds).map .dec) s = execAll ((c :: ds).map .dec) u := by
    rw [List.map_append, execAll_append _ _ hu]
  obtain ⟨huf, hum⟩ | ⟨huf, hout⟩ := hrun
  · have hbad := (exec_dec_runs huf hum c).trans (decodeChar_malformed (.inl ((charBit_eq_none c).2 ⟨h0, h1⟩)))
    have hrest := execAll_decs_faulted (s := u.raise .malformed (encode (.dec c))) nofun ds
    exact ⟨u, _, hu, happend.trans ((execAll_cons hbad _).trans hrest), rfl, fun _ => ⟨rfl, rfl⟩,
      fun hn => absurd huf hn⟩
  · exact ⟨u, u, hu, happend.trans (execAll_decs_faulted huf (c :: ds)), by rw [State.outLen, hout]; rfl,
      fun hn => absurd hn huf, fun _ => rfl⟩

/-- Settles O48: neither the dispatch nor the three bodies read what the other table replaces. -/
theorem decoderIgnoresTheTable : Obligations.DecoderIgnoresTheTable := by
  rintro i (rfl | ⟨c, rfl⟩ | rfl) s t freq code h
  · rw [exec_dbeg] at h ⊢
    exact dispatch_overTable freq code (fun t ht => by cases ht; rfl) h
  · exact dispatch_overTable freq code (fun t => decodeChar_overTable freq code) h
  · exact dispatch_overTable freq code (fun t => endDecode_overTable freq code) h

end Sys2Proof.Machine
end

section
/-! CLAIMS. The frames of the commands (20_memory.md R66). -/

namespace Sys2Proof.Machine

/-- Settles O50: each command that leaves no fault had its effect, and that writes what R66 lists. -/
theorem buildCommandsFrame : Obligations.BuildCommandsFrame := by
  intro i s t _ h ht
  refine ⟨?_, ?_, ?_, ?_⟩
  · rintro rfl
    exact (Host.Outcome.next.inj ((exec_nop_eq s).symm.trans h)).symm
  · rintro b rfl
    obtain ⟨-, rfl⟩ := exec_cnt_no_fault h ht
    refine ⟨rfl, fun c hc => ?_⟩
    exact (get_countedFreq s.freq b c).trans (if_neg fun hcb => hc hcb.1)
  · rintro rfl
    obtain ⟨-, rfl⟩ := exec_bld_no_fault h ht
    rw [withTree_buildTree]
  · rintro rfl
    obtain ⟨-, he⟩ := exec_effect (by decide) h ht
    cases he
    rfl

/-- Settles O51: each command that leaves no fault had its effect, and OUT grows at its end alone. -/
theorem sessionCommandsFrame : Obligations.SessionCommandsFrame := by
  intro i s t _ h ht
  refine ⟨?_, ?_, ?_, ?_, ?_, ?_⟩
  · rintro rfl
    obtain ⟨-, ⟨⟩⟩ := exec_effect (by decide) h ht
    rfl
  · rintro b rfl
    obtain ⟨-, he⟩ := exec_effect (i := .enc b) nofun h ht
    cases he with
    | encFiltered => exact ⟨rfl, fun _ _ => rfl⟩
    | enc => exact ⟨rfl, fun _ hk => List.getElem?_append_left hk⟩
  · rintro rfl
    obtain ⟨-, ⟨⟩⟩ := exec_effect (by decide) h ht
    rfl
  · rintro rfl
    obtain ⟨-, ⟨⟩⟩ := exec_effect (by decide) h ht
    rfl
  · rintro c rfl
    obtain ⟨-, he⟩ := exec_effect (i := .dec c) nofun h ht
    cases he with
    | decEmit => exact ⟨rfl, fun _ hk => List.getElem?_append_left hk⟩
    | decMove => exact ⟨rfl, fun _ _ => rfl⟩
  · rintro rfl
    obtain ⟨-, ⟨⟩⟩ := exec_effect (by decide) h ht
    exact ⟨rfl, fun _ hk => List.getElem?_append_left hk⟩

end Sys2Proof.Machine
end

section
/-! SUPPORT. The one test of each body that raises RESOURCE (60_exceptions.md R186). -/

namespace Sys2Proof.Machine

variable {s t : State} {b c : Byte}

theorem countByte_fault_eq_resource_iff (hf : s.fault = .none) (h : countByte b s = .next t) :
    t.fault = .resource ↔ b ≠ Config.newline ∧ (Table.get s.freq b).toNat = Config.wmax := by
  by_cases hb : b = Config.newline
  · subst hb
    cases h
    simp [hf]
  · by_cases hw : (Table.get s.freq b).toNat = Config.wmax
    · cases (countByte_full hb hw).symm.trans h
      exact iff_of_true rfl ⟨hb, hw⟩
    · cases (countByte_counts hb hw).symm.trans h
      simp [hf, hw]

theorem buildBody_fault_eq_resource_iff (hf : s.fault = .none) (h : buildBody s = .next t) :
    t.fault = .resource ↔ Config.wmax < totalCount s.freq := by
  unfold buildBody at h
  rw [withTree_buildTree] at h
  split at h
  · next ht => cases h; exact iff_of_true rfl ht
  · next ht => cases h; simp [hf, ht]

theorem encodeByte_fault_eq_resource_iff (hf : s.fault = .none) (h : encodeByte b s = .next t) :
    t.fault = .resource ↔
      b ≠ Config.newline ∧ ∃ p, Table.get s.code b = some p ∧ s.outCap < s.outLen + p.length := by
  by_cases hb : b = Config.newline
  · subst hb
    cases h
    simp [hf]
  · cases hc : Table.get s.code b with
    | none =>
      cases (encodeByte_noCode hb hc).symm.trans h
      simp
    | some p =>
      obtain hfit | hfull := le_or_gt (s.outLen + p.length) s.outCap
      · cases (encodeByte_fits hb hc hfit).symm.trans h
        simp [hf, hfit]
      · cases (encodeByte_full hb hc hfull).symm.trans h
        simp [hb, hfull]

theorem walkEdge_fault_eq_resource_iff {w : Word} {d : Bool} (hf : s.fault = .none) (h : walkEdge w d s = .next t) :
    t.fault = .resource ↔
      (s.nodeAt ((s.nodeAt s.cur).child d)).isLeaf = true ∧ s.outCap < s.outLen + 1 := by
  cases hl : (s.nodeAt ((s.nodeAt s.cur).child d)).isLeaf with
  | true =>
    obtain hfit | hfull := le_or_gt (s.outLen + 1) s.outCap
    · cases (walkEdge_emits rfl hl hfit).symm.trans h
      simpa [hf] using hfit
    · cases (walkEdge_full rfl hl hfull).symm.trans h
      simp [hfull]
  | false =>
    cases (walkEdge_moves rfl hl).symm.trans h
    simp [hf]

/-- DEC raises RESOURCE in its walk alone (R166). -/
theorem decodeChar_fault_eq_resource_iff (hf : s.fault = .none) (h : decodeChar c s = .next t) :
    t.fault = .resource ↔
      ∃ d, c = bitChar d ∧ s.rootValid = true ∧ (s.nodeAt s.cur).isLeaf = false ∧
        (s.nodeAt ((s.nodeAt s.cur).child d)).isLeaf = true ∧ s.outCap < s.outLen + 1 := by
  by_cases hbad : charBit c = none ∨ s.rootValid = false ∨ (s.nodeAt s.cur).isLeaf = true
  · cases (decodeChar_malformed hbad).symm.trans h
    refine iff_of_false nofun ?_
    rintro ⟨d, rfl, hv, hi, -⟩
    simp [hv, hi] at hbad
  · simp only [not_or, Bool.not_eq_false, Bool.not_eq_true] at hbad
    obtain ⟨hchar, hv, hi⟩ := hbad
    obtain ⟨d, hd⟩ := Option.ne_none_iff_exists'.1 hchar
    rw [decodeChar_walks hd hv hi] at h
    rw [walkEdge_fault_eq_resource_iff hf h]
    constructor
    · exact fun hfull => ⟨d, charBit_eq_some hd, hv, hi, hfull⟩
    · rintro ⟨e, rfl, -, -, hfull⟩
      cases (charBit_bitChar e).symm.trans hd
      exact hfull

theorem endDecode_fault_eq_resource_iff (hf : s.fault = .none) (h : endDecode s = .next t) :
    t.fault = .resource ↔
      s.rootValid = true ∧ (s.nodeAt s.root).isLeaf = true ∧
        s.outCap < s.outLen + (s.nodeAt s.root).weight.toNat := by
  cases hv : s.rootValid with
  | false =>
    cases (endDecode_of_no_tree hv).symm.trans h
    simp [hf]
  | true =>
    cases hl : (s.nodeAt s.root).isLeaf with
    | false =>
      cases (endDecode_internal hv hl).symm.trans h
      simp [hf]
    | true =>
      obtain hfit | hfull := le_or_gt (s.outLen + (s.nodeAt s.root).weight.toNat) s.outCap
      · cases (endDecode_leaf_fits hv hl hfit).symm.trans h
        simp [hf, hfit]
      · cases (endDecode_leaf_full hv hl hfull).symm.trans h
        simp [hfull]

end Sys2Proof.Machine
end

section
/-! CLAIMS. The five causes of RESOURCE (60_exceptions.md R186). -/

namespace Sys2Proof.Machine

/-- Settles O19: RESOURCE comes from the body of an admitted command, and five bodies have one test that raises it. -/
theorem resourceHasFiveCauses : Obligations.ResourceHasFiveCauses := by
  intro w s t hf h
  constructor
  · intro ht
    obtain ⟨i, hd, he, ha, hm⟩ := issue_fault_of_body hf h (by simp [ht]) (by simp [ht])
    rw [ht] at hm
    cases i with
    | cnt b =>
      have hp : s.phase = .idle := beq_iff_eq.1 ha
      rw [exec_cnt_idle hf hp] at he
      exact .inl ⟨b, hd, hp, (countByte_fault_eq_resource_iff hf he).1 ht⟩
    | bld =>
      have hp : s.phase = .idle := beq_iff_eq.1 ha
      rw [exec_bld, dispatch_admitted hf ha] at he
      exact .inr (.inl ⟨hd, hp, (buildBody_fault_eq_resource_iff hf he).1 ht⟩)
    | enc b =>
      have hmode : s.mode = .enc := beq_iff_eq.1 ha
      rw [exec_enc_runs hf hmode] at he
      obtain ⟨hb, p, hc, hfull⟩ := (encodeByte_fault_eq_resource_iff hf he).1 ht
      exact .inr (.inr (.inl ⟨b, p, hd, hmode, hb, hc, hfull⟩))
    | dec c =>
      have hmode : s.mode = .dec := beq_iff_eq.1 ha
      rw [exec_dec_runs hf hmode] at he
      obtain ⟨d, rfl, hcause⟩ := (decodeChar_fault_eq_resource_iff hf he).1 ht
      exact .inr (.inr (.inr (.inl ⟨d, hd, hmode, hcause⟩)))
    | dend =>
      have hmode : s.mode = .dec := beq_iff_eq.1 ha
      rw [exec_dend_runs hf hmode] at he
      exact .inr (.inr (.inr (.inr ⟨hd, hmode, (endDecode_fault_eq_resource_iff hf he).1 ht⟩)))
    | _ => simp [bodyFaults] at hm
  · rintro (⟨b, hd, hp, hcause⟩ | ⟨hd, hp, hcause⟩ | ⟨b, p, hd, hmode, hb, hc, hfull⟩ | ⟨d, hd, hmode, hcause⟩ |
      ⟨hd, hmode, hcause⟩) <;> rw [issue_of_decode_instr hd] at h
    · rw [exec_cnt_idle hf hp] at h
      exact (countByte_fault_eq_resource_iff hf h).2 hcause
    · rw [exec_bld, dispatch_admitted (i := .bld) hf (beq_iff_eq.2 hp)] at h
      exact (buildBody_fault_eq_resource_iff hf h).2 hcause
    · rw [exec_enc_runs hf hmode] at h
      exact (encodeByte_fault_eq_resource_iff hf h).2 ⟨hb, p, hc, hfull⟩
    · rw [exec_dec_runs hf hmode] at h
      exact (decodeChar_fault_eq_resource_iff hf h).2 ⟨d, rfl, hcause⟩
    · rw [exec_dend_runs hf hmode] at h
      exact (endDecode_fault_eq_resource_iff hf h).2 hcause

end Sys2Proof.Machine
end

section
/-! SUPPORT. The host read port, one lemma a window (20_memory.md R61, R62), and the fields of its words. -/

namespace Sys2Proof.Machine

variable {s : State} {a : Addr} {k : Nat}

/-! The windows of the read map -/

/-- An address below 2^32 as a number. -/
theorem toNat_addr {n : Nat} (h : n < 2 ^ 32) : (BitVec.ofNat 32 n).toNat = n := Nat.mod_eq_of_lt h

theorem ofNat_toNat_byte {n : Nat} {b : Byte} (h : n = b.toNat) : BitVec.ofNat 8 n = b := by
  rw [h, BitVec.ofNat_toNat, BitVec.setWidth_eq]

theorem readSlot_of_getElem? {α : Type} {xs : List α} {x : α} (h : xs[k]? = some x) (f : α → Data) :
    readSlot s a xs k f = f x := by
  rw [readSlot, h]

theorem hostRead_freq {b : Byte} (ha : a.toNat = 0x100 + b.toNat) : s.hostRead a = Table.get s.freq b := by
  have hb := b.isLt
  simp (disch := omega) only [State.hostRead, if_pos, if_neg]
  rw [ofNat_toNat_byte (b := b) (by omega)]

theorem hostRead_pq {x : Idx} (ha : a.toNat = 0x200 + k) (hk : k < 256) (hx : s.pq[k]? = some x) :
    s.hostRead a = widen x := by
  simp (disch := omega) only [State.hostRead, if_pos, if_neg]
  exact readSlot_of_getElem? (by rwa [ha, Nat.add_sub_cancel_left]) _

/-- The link word stands at the even address of a node, its weight at the odd one. -/
theorem hostRead_node {x : Node} {odd : Bool} (ha : a.toNat = 0x400 + (2 * k + odd.toNat)) (hk : k < 511)
    (hx : s.node[k]? = some x) : s.hostRead a = nodeWord x odd := by
  have hodd := odd.toNat_le
  have hslot : (a.toNat - 0x400) / 2 = k := by omega
  have hparity : decide ((a.toNat - 0x400) % 2 = 1) = odd := by
    rw [ha, Nat.add_sub_cancel_left, Nat.mul_add_mod]
    cases odd <;> rfl
  simp (disch := omega) only [State.hostRead, Config.nodeMax, if_pos, if_neg]
  rw [hslot, hparity]
  exact readSlot_of_getElem? hx _

theorem hostRead_info {b : Byte} (ha : a.toNat = 0x800 + b.toNat) :
    s.hostRead a = infoWord (Table.get s.code b) := by
  have hb := b.isLt
  simp (disch := omega) only [State.hostRead, Config.nodeMax, if_pos, if_neg]
  rw [ofNat_toNat_byte (b := b) (by omega)]

theorem hostRead_bits {b : Byte} (ha : a.toNat = 0x1000 + 8 * b.toNat + k) (hk : k < 8) :
    s.hostRead a = bitsWord (Table.get s.code b) k := by
  have hb := b.isLt
  have hword : (a.toNat - 0x1000) % 8 = k := by omega
  simp (disch := omega) only [State.hostRead, Config.nodeMax, if_pos, if_neg]
  rw [ofNat_toNat_byte (b := b) (by omega), hword]

theorem hostRead_out {x : Byte} (ha : a.toNat = 0x80000000 + k) (hk : k < s.outCap) (hx : s.out[k]? = some x) :
    s.hostRead a = widen x := by
  simp (disch := omega) only [State.hostRead, Config.nodeMax, if_pos, if_neg]
  exact readSlot_of_getElem? (by rwa [ha, Nat.add_sub_cancel_left]) _

theorem readRegister_unmapped (h : 9 ≤ k) : readRegister s k = 0#32 := by
  obtain ⟨n, rfl⟩ := Nat.exists_eq_add_of_le' h
  rfl

/-- The addresses between the windows (R62). -/
theorem hostRead_unmapped
    (h : (9 ≤ a.toNat ∧ a.toNat < 0x100) ∨ (0x300 ≤ a.toNat ∧ a.toNat < 0x400) ∨
      (0x7FE ≤ a.toNat ∧ a.toNat < 0x800) ∨ (0x900 ≤ a.toNat ∧ a.toNat < 0x1000) ∨
      (0x1800 ≤ a.toNat ∧ a.toNat < 0x80000000) ∨ 0x80000000 + s.outCap ≤ a.toNat) : s.hostRead a = 0#32 := by
  obtain ⟨hk, h⟩ | h | h | h | h | h := h
  · simp (disch := omega) only [State.hostRead, if_pos]
    exact readRegister_unmapped hk
  all_goals simp (disch := omega) only [State.hostRead, Config.nodeMax, if_pos, if_neg]

/-! The link word of a node. It is a concatenation, cut as STATUS is. -/

theorem linkWord_left (x : Node) : (linkWord x).extractLsb' 0 9 = x.left := by
  rw [linkWord]
  iterate 4 rw [BitVec.extractLsb'_append_eq_of_add_le (by decide)]
  exact BitVec.extractLsb'_eq_self

theorem linkWord_right (x : Node) : (linkWord x).extractLsb' 9 9 = x.right := by
  rw [linkWord]
  iterate 3 rw [BitVec.extractLsb'_append_eq_of_add_le (by decide)]
  rw [BitVec.extractLsb'_append_eq_of_le (by decide)]
  exact BitVec.extractLsb'_eq_self

theorem linkWord_sym (x : Node) : (linkWord x).extractLsb' 18 8 = x.sym := by
  rw [linkWord]
  iterate 2 rw [BitVec.extractLsb'_append_eq_of_add_le (by decide)]
  rw [BitVec.extractLsb'_append_eq_of_le (by decide)]
  exact BitVec.extractLsb'_eq_self

theorem linkWord_isLeaf (x : Node) : (linkWord x).getLsbD 26 = x.isLeaf := by
  simp only [linkWord, BitVec.getLsbD_append]
  simp

theorem linkWord_high (x : Node) : (linkWord x).extractLsb' 27 5 = 0#5 := by
  rw [linkWord, BitVec.extractLsb'_append_eq_of_le (by decide)]
  exact BitVec.extractLsb'_eq_self

/-! The words of a code record -/

/-- The valid bit above the length. -/
theorem infoWord_toNat {p : Code} (h : p.length ≤ 255) : (infoWord (some p)).toNat = 256 + p.length := by
  have hlen : (BitVec.ofNat 8 p.length).toNat = p.length := Nat.mod_eq_of_lt (Nat.lt_succ_of_le h)
  have hor : 2 ^ 8 * 1 + p.length = 2 ^ 8 * 1 ||| p.length := Nat.two_pow_add_eq_or_of_lt (Nat.lt_succ_of_le h) 1
  have happend : (infoWord (some p)).toNat = (1#1 ++ BitVec.ofNat 8 p.length).toNat :=
    (BitVec.toNat_append 0#23 _).trans (by simp)
  rw [happend, BitVec.toNat_append, hlen]
  exact hor.symm

/-- Bit t of a packed bit-string is its element t. -/
theorem testBit_packBits (p : Code) (t : Nat) : (packBits p).testBit t = p.getD t false := by
  induction p generalizing t with
  | nil => exact Nat.zero_testBit t
  | cons d p ih =>
    have hbit : packBits (d :: p) = Nat.bit d (packBits p) := by
      rw [packBits, Nat.bit_val, Nat.add_comm]
    rw [hbit]
    cases t with
    | zero => exact Nat.testBit_bit_zero d _
    | succ t => exact (Nat.testBit_bit_succ t d _).trans (ih t)

/-- Bit t of bits word j is bit 32 * j + t of the code (R62). -/
theorem getLsbD_bitsWord (c : Option Code) {j t : Nat} (ht : t < 32) :
    (bitsWord c j).getLsbD t = (decide (32 * j + t < 255) && (c.getD []).getD (32 * j + t) false) := by
  cases c with
  | none => simp [bitsWord]
  | some p =>
    rw [bitsWord, BitVec.getLsbD_ofNat, decide_eq_true ht, Bool.true_and, testBit_packBits]
    by_cases hlt : 32 * j + t < 255 <;> simp [Config.codeLenMax, ht, hlt]

end Sys2Proof.Machine
end

section
/-! CLAIMS. The read port (10_state.md R36; 20_memory.md R62). -/

namespace Sys2Proof.Machine

/-- Settles O58: the addresses are evaluated. -/
theorem readPortGivesTheRegisters : Obligations.ReadPortGivesTheRegisters := fun _ =>
  ⟨rfl, rfl, rfl, rfl, rfl, rfl, rfl, rfl, rfl⟩

/-- Settles O59: each address falls in one window, whose word is read field by field. -/
theorem readPortGivesTheStores : Obligations.ReadPortGivesTheStores := by
  intro s
  have hbyte (b : Byte) : b.toNat < 256 := b.isLt
  refine ⟨fun b => ?_, fun k x hk hx => ?_, fun i x hi hx => ?_, fun b hc => ?_, fun b p hc hp => ?_,
    fun b j t hj ht => ?_, fun i x hi hmax hx => ?_, fun a => hostRead_unmapped⟩
  · have := hbyte b
    exact hostRead_freq (toNat_addr (by omega))
  · exact hostRead_pq (toNat_addr (by omega)) hk hx
  · have heven := hostRead_node (odd := false) (toNat_addr (n := 0x400 + 2 * i) (by omega)) hi hx
    have hodd := hostRead_node (odd := true) (toNat_addr (n := 0x400 + 2 * i + 1) (by omega)) hi hx
    rw [heven, hodd]
    exact ⟨linkWord_left x, linkWord_right x, linkWord_sym x, linkWord_isLeaf x, linkWord_high x, rfl⟩
  · have := hbyte b
    rw [hostRead_info (toNat_addr (by omega)), hc]
    rfl
  · have := hbyte b
    rw [hostRead_info (toNat_addr (by omega)), hc, infoWord_toNat hp]
  · have := hbyte b
    rw [hostRead_bits (toNat_addr (by omega)) hj, getLsbD_bitsWord _ ht]
  · exact hostRead_out (toNat_addr hmax) hi hx

end Sys2Proof.Machine
end
